-- ==== Sys2Proof/Word.lean ====
section
/-! DEFINITION. The machine's word, byte and register-number types (`00_scope.md` R5, R6; `10_state.md` R20). -/

namespace Sys2Proof

/-- A 32-bit value: a general register, `pc`, an address, an instruction word (R5, `XLEN` and `ILEN`). -/
abbrev Word := BitVec 32

/-- The addressable unit of memory, 8 bits (R33). -/
abbrev Byte := BitVec 8

/-- The number of a general register, 0 to 31 (R20). -/
abbrev Reg := Fin 32

end Sys2Proof
end

