-- ==== Sys2Proof/Syntax.lean ====
section
/-! DEFINITION. The 49 instructions of `30_encoding.md` R97, one constructor per row of the opcode table. An immediate
is kept at the width its format encodes it with (R90 to R95); a branch or jump distance is in bytes, bit 0 included. -/

namespace Sys2Proof

/-- The instructions. `rd` is the destination, `rs1` and `rs2` the sources, whatever order the assembler writes them in. -/
inductive Instr where
  -- format U (R150, R151)
  | lui (rd : Reg) (imm : BitVec 20)
  | auipc (rd : Reg) (imm : BitVec 20)
  -- jumps (R167, R168)
  | jal (rd : Reg) (dist : BitVec 21)
  | jalr (rd rs1 : Reg) (imm : BitVec 12)
  -- branches (R161 to R166)
  | beq (rs1 rs2 : Reg) (dist : BitVec 13)
  | bne (rs1 rs2 : Reg) (dist : BitVec 13)
  | blt (rs1 rs2 : Reg) (dist : BitVec 13)
  | bge (rs1 rs2 : Reg) (dist : BitVec 13)
  | bltu (rs1 rs2 : Reg) (dist : BitVec 13)
  | bgeu (rs1 rs2 : Reg) (dist : BitVec 13)
  -- loads (R221 to R225)
  | lb (rd rs1 : Reg) (imm : BitVec 12)
  | lh (rd rs1 : Reg) (imm : BitVec 12)
  | lw (rd rs1 : Reg) (imm : BitVec 12)
  | lbu (rd rs1 : Reg) (imm : BitVec 12)
  | lhu (rd rs1 : Reg) (imm : BitVec 12)
  -- stores (R226 to R228)
  | sb (rs2 rs1 : Reg) (imm : BitVec 12)
  | sh (rs2 rs1 : Reg) (imm : BitVec 12)
  | sw (rs2 rs1 : Reg) (imm : BitVec 12)
  -- register-immediate (R141 to R149)
  | addi (rd rs1 : Reg) (imm : BitVec 12)
  | slti (rd rs1 : Reg) (imm : BitVec 12)
  | sltiu (rd rs1 : Reg) (imm : BitVec 12)
  | xori (rd rs1 : Reg) (imm : BitVec 12)
  | ori (rd rs1 : Reg) (imm : BitVec 12)
  | andi (rd rs1 : Reg) (imm : BitVec 12)
  | slli (rd rs1 : Reg) (shamt : BitVec 5)
  | srli (rd rs1 : Reg) (shamt : BitVec 5)
  | srai (rd rs1 : Reg) (shamt : BitVec 5)
  -- register-register (R121 to R130)
  | add (rd rs1 rs2 : Reg)
  | sub (rd rs1 rs2 : Reg)
  | sll (rd rs1 rs2 : Reg)
  | slt (rd rs1 rs2 : Reg)
  | sltu (rd rs1 rs2 : Reg)
  | xor (rd rs1 rs2 : Reg)
  | srl (rd rs1 rs2 : Reg)
  | sra (rd rs1 rs2 : Reg)
  | or (rd rs1 rs2 : Reg)
  | and (rd rs1 rs2 : Reg)
  -- multiply and divide (R181 to R188)
  | mul (rd rs1 rs2 : Reg)
  | mulh (rd rs1 rs2 : Reg)
  | mulhsu (rd rs1 rs2 : Reg)
  | mulhu (rd rs1 rs2 : Reg)
  | div (rd rs1 rs2 : Reg)
  | divu (rd rs1 rs2 : Reg)
  | rem (rd rs1 rs2 : Reg)
  | remu (rd rs1 rs2 : Reg)
  -- system (R201 to R204)
  | mret
  | ecall
  /-- `fence`, with the bits 31:15 and 11:7 of its word, which name nothing and are ignored (R99, R203). -/
  | fence (high : BitVec 17) (low : BitVec 5)
  /-- `fence.i`, with the bits 24:15 and 11:7 of its word, which name nothing and are ignored (R99, R204). -/
  | fenceI (mid : BitVec 10) (low : BitVec 5)
  deriving DecidableEq, Repr

end Sys2Proof
end

