-- ==== Sys2Proof/WellFormed.lean ====
section
/-! DEFINITION. Which terms of `Instr` the encoding admits: a branch or `jal` distance is even (`30_encoding.md` R92,
R94, R100: the assembler must reject an odd distance). Every other operand has exactly the width of its field. -/

namespace Sys2Proof

/-- A byte distance that a B or J immediate can hold has bit 0 equal to 0 (R92, R94). -/
def evenDistance {n : Nat} (dist : BitVec n) : Bool := !dist.getLsbD 0

/-- The instruction has an encoding. -/
def Instr.wf : Instr → Bool
  | .jal _ dist => evenDistance dist
  | .beq _ _ dist => evenDistance dist
  | .bne _ _ dist => evenDistance dist
  | .blt _ _ dist => evenDistance dist
  | .bge _ _ dist => evenDistance dist
  | .bltu _ _ dist => evenDistance dist
  | .bgeu _ _ dist => evenDistance dist
  | .lui .. | .auipc .. | .jalr .. => true
  | .lb .. | .lh .. | .lw .. | .lbu .. | .lhu .. | .sb .. | .sh .. | .sw .. => true
  | .addi .. | .slti .. | .sltiu .. | .xori .. | .ori .. | .andi .. | .slli .. | .srli .. | .srai .. => true
  | .add .. | .sub .. | .sll .. | .slt .. | .sltu .. | .xor .. | .srl .. | .sra .. | .or .. | .and .. => true
  | .mul .. | .mulh .. | .mulhsu .. | .mulhu .. | .div .. | .divu .. | .rem .. | .remu .. => true
  | .mret | .ecall | .fence .. | .fenceI .. => true

end Sys2Proof
end

