-- ==== Sys2Proof/Decode.lean ====
section
/-! DEFINITION. The decoder and the encoder (`30_encoding.md`): fields R81, formats R82 to R89, immediates R90 to R95,
opcode map R96 to R98. -/

namespace Sys2Proof

/-! ### Fields and immediates of an instruction word -/

/-- The `opcode` field (R81). -/
def opcodeField (w : Word) : BitVec 7 := w.extractLsb' 0 7

/-- The `funct3` field (R81). -/
def funct3Field (w : Word) : BitVec 3 := w.extractLsb' 12 3

/-- The `funct7` field (R81). -/
def funct7Field (w : Word) : BitVec 7 := w.extractLsb' 25 7

/-- The register a 5-bit field names (R20). -/
def regOfBits (b : BitVec 5) : Reg := ⟨b.toNat, b.isLt⟩

/-- The 5-bit field that names a register (R20). -/
def bitsOfReg (r : Reg) : BitVec 5 := BitVec.ofNat 5 r.val

/-- The `rd` field (R81). -/
def rdField (w : Word) : Reg := regOfBits (w.extractLsb' 7 5)

/-- The `rs1` field (R81). -/
def rs1Field (w : Word) : Reg := regOfBits (w.extractLsb' 15 5)

/-- The `rs2` field (R81). -/
def rs2Field (w : Word) : Reg := regOfBits (w.extractLsb' 20 5)

/-- The `shamt` field (R88, R95). -/
def shamtField (w : Word) : BitVec 5 := w.extractLsb' 20 5

/-- The 12 bits of the I-immediate (R83, R90). -/
def immI (w : Word) : BitVec 12 := w.extractLsb' 20 12

/-- The 12 bits of the S-immediate (R84, R91). -/
def immS (w : Word) : BitVec 12 := w.extractLsb' 25 7 ++ w.extractLsb' 7 5

/-- The 13 bits of the B-immediate, a byte distance (R85, R92). -/
def immB (w : Word) : BitVec 13 :=
  w.extractLsb' 31 1 ++ w.extractLsb' 7 1 ++ w.extractLsb' 25 6 ++ w.extractLsb' 8 4 ++ 0#1

/-- The 20 bits of the U-immediate (R86, R93). -/
def immU (w : Word) : BitVec 20 := w.extractLsb' 12 20

/-- The 21 bits of the J-immediate, a byte distance (R87, R94). -/
def immJ (w : Word) : BitVec 21 :=
  w.extractLsb' 31 1 ++ w.extractLsb' 12 8 ++ w.extractLsb' 20 1 ++ w.extractLsb' 21 10 ++ 0#1

/-! ### Decoding -/

/-- Why a word is an undefined encoding (R98), or why there is no word. -/
inductive Reject where
  /-- The opcode is not in the map of R96. -/
  | opcode (op : BitVec 7)
  /-- The opcode has no instruction with this `funct3`. -/
  | funct3 (op : BitVec 7) (f3 : BitVec 3)
  /-- The opcode and `funct3` have no instruction with this `funct7`. -/
  | funct7 (op : BitVec 7) (f3 : BitVec 3) (f7 : BitVec 7)
  /-- Opcode 1110011 with a word that is neither `ecall` nor `mret`. -/
  | system (w : Word)
  /-- Fewer than four bytes. -/
  | truncated
  deriving DecidableEq, Repr

/-- Opcode 1100011: the branches (R161 to R166). -/
def decodeBranch (w : Word) : Except Reject Instr :=
  match funct3Field w with
  | 0b000#3 => .ok (.beq (rs1Field w) (rs2Field w) (immB w))
  | 0b001#3 => .ok (.bne (rs1Field w) (rs2Field w) (immB w))
  | 0b100#3 => .ok (.blt (rs1Field w) (rs2Field w) (immB w))
  | 0b101#3 => .ok (.bge (rs1Field w) (rs2Field w) (immB w))
  | 0b110#3 => .ok (.bltu (rs1Field w) (rs2Field w) (immB w))
  | 0b111#3 => .ok (.bgeu (rs1Field w) (rs2Field w) (immB w))
  | f3 => .error (.funct3 (opcodeField w) f3)

/-- Opcode 0000011: the loads (R221 to R225). -/
def decodeLoad (w : Word) : Except Reject Instr :=
  match funct3Field w with
  | 0b000#3 => .ok (.lb (rdField w) (rs1Field w) (immI w))
  | 0b001#3 => .ok (.lh (rdField w) (rs1Field w) (immI w))
  | 0b010#3 => .ok (.lw (rdField w) (rs1Field w) (immI w))
  | 0b100#3 => .ok (.lbu (rdField w) (rs1Field w) (immI w))
  | 0b101#3 => .ok (.lhu (rdField w) (rs1Field w) (immI w))
  | f3 => .error (.funct3 (opcodeField w) f3)

/-- Opcode 0100011: the stores (R226 to R228). -/
def decodeStore (w : Word) : Except Reject Instr :=
  match funct3Field w with
  | 0b000#3 => .ok (.sb (rs2Field w) (rs1Field w) (immS w))
  | 0b001#3 => .ok (.sh (rs2Field w) (rs1Field w) (immS w))
  | 0b010#3 => .ok (.sw (rs2Field w) (rs1Field w) (immS w))
  | f3 => .error (.funct3 (opcodeField w) f3)

/-- Opcode 0010011: register-immediate (R141 to R149). The last arm is `funct3` 101, the one value left. -/
def decodeOpImm (w : Word) : Except Reject Instr :=
  match funct3Field w with
  | 0b000#3 => .ok (.addi (rdField w) (rs1Field w) (immI w))
  | 0b010#3 => .ok (.slti (rdField w) (rs1Field w) (immI w))
  | 0b011#3 => .ok (.sltiu (rdField w) (rs1Field w) (immI w))
  | 0b100#3 => .ok (.xori (rdField w) (rs1Field w) (immI w))
  | 0b110#3 => .ok (.ori (rdField w) (rs1Field w) (immI w))
  | 0b111#3 => .ok (.andi (rdField w) (rs1Field w) (immI w))
  | 0b001#3 =>
    match funct7Field w with
    | 0b0000000#7 => .ok (.slli (rdField w) (rs1Field w) (shamtField w))
    | f7 => .error (.funct7 (opcodeField w) 0b001#3 f7)
  | f3 =>
    match funct7Field w with
    | 0b0000000#7 => .ok (.srli (rdField w) (rs1Field w) (shamtField w))
    | 0b0100000#7 => .ok (.srai (rdField w) (rs1Field w) (shamtField w))
    | f7 => .error (.funct7 (opcodeField w) f3 f7)

/-- Opcode 0110011 with `funct7` 0000000 (R121 to R130). The last arm is `funct3` 111, the one value left. -/
def decodeOpBase (w : Word) : Instr :=
  match funct3Field w with
  | 0b000#3 => .add (rdField w) (rs1Field w) (rs2Field w)
  | 0b001#3 => .sll (rdField w) (rs1Field w) (rs2Field w)
  | 0b010#3 => .slt (rdField w) (rs1Field w) (rs2Field w)
  | 0b011#3 => .sltu (rdField w) (rs1Field w) (rs2Field w)
  | 0b100#3 => .xor (rdField w) (rs1Field w) (rs2Field w)
  | 0b101#3 => .srl (rdField w) (rs1Field w) (rs2Field w)
  | 0b110#3 => .or (rdField w) (rs1Field w) (rs2Field w)
  | _ => .and (rdField w) (rs1Field w) (rs2Field w)

/-- Opcode 0110011 with `funct7` 0000001 (R181 to R188). The last arm is `funct3` 111, the one value left. -/
def decodeOpMulDiv (w : Word) : Instr :=
  match funct3Field w with
  | 0b000#3 => .mul (rdField w) (rs1Field w) (rs2Field w)
  | 0b001#3 => .mulh (rdField w) (rs1Field w) (rs2Field w)
  | 0b010#3 => .mulhsu (rdField w) (rs1Field w) (rs2Field w)
  | 0b011#3 => .mulhu (rdField w) (rs1Field w) (rs2Field w)
  | 0b100#3 => .div (rdField w) (rs1Field w) (rs2Field w)
  | 0b101#3 => .divu (rdField w) (rs1Field w) (rs2Field w)
  | 0b110#3 => .rem (rdField w) (rs1Field w) (rs2Field w)
  | _ => .remu (rdField w) (rs1Field w) (rs2Field w)

/-- Opcode 0110011: register-register (R96). -/
def decodeOp (w : Word) : Except Reject Instr :=
  match funct7Field w with
  | 0b0000000#7 => .ok (decodeOpBase w)
  | 0b0000001#7 => .ok (decodeOpMulDiv w)
  | 0b0100000#7 =>
    match funct3Field w with
    | 0b000#3 => .ok (.sub (rdField w) (rs1Field w) (rs2Field w))
    | 0b101#3 => .ok (.sra (rdField w) (rs1Field w) (rs2Field w))
    | f3 => .error (.funct7 (opcodeField w) f3 0b0100000#7)
  | f7 => .error (.funct7 (opcodeField w) (funct3Field w) f7)

/-- Opcode 0001111: `fence`, `fence.i` (R89, R203, R204). -/
def decodeMiscMem (w : Word) : Except Reject Instr :=
  match funct3Field w with
  | 0b000#3 => .ok (.fence (w.extractLsb' 15 17) (w.extractLsb' 7 5))
  | 0b001#3 =>
    match funct7Field w with
    | 0b0000000#7 => .ok (.fenceI (w.extractLsb' 15 10) (w.extractLsb' 7 5))
    | f7 => .error (.funct7 (opcodeField w) 0b001#3 f7)
  | f3 => .error (.funct3 (opcodeField w) f3)

/-- Opcode 1110011: two words only (R89, R98). -/
def decodeSystem (w : Word) : Except Reject Instr :=
  if w = 0x00000073 then .ok .ecall
  else if w = 0x30200073 then .ok .mret
  else .error (.system w)

/-- The instruction a word encodes, or why it encodes none (R96 to R98). -/
def decode (w : Word) : Except Reject Instr :=
  match opcodeField w with
  | 0b0110111#7 => .ok (.lui (rdField w) (immU w))
  | 0b0010111#7 => .ok (.auipc (rdField w) (immU w))
  | 0b1101111#7 => .ok (.jal (rdField w) (immJ w))
  | 0b1100111#7 =>
    match funct3Field w with
    | 0b000#3 => .ok (.jalr (rdField w) (rs1Field w) (immI w))
    | f3 => .error (.funct3 0b1100111#7 f3)
  | 0b1100011#7 => decodeBranch w
  | 0b0000011#7 => decodeLoad w
  | 0b0100011#7 => decodeStore w
  | 0b0010011#7 => decodeOpImm w
  | 0b0110011#7 => decodeOp w
  | 0b0001111#7 => decodeMiscMem w
  | 0b1110011#7 => decodeSystem w
  | op => .error (.opcode op)

/-- A word from the four bytes that hold it, least significant byte first (`20_memory.md` R51, R56). -/
def wordOfBytes (b0 b1 b2 b3 : Byte) : Word := b3 ++ b2 ++ b1 ++ b0

/-- The four bytes that hold a word, by ascending address (R51). -/
def bytesOfWord (w : Word) : List Byte :=
  [w.extractLsb' 0 8, w.extractLsb' 8 8, w.extractLsb' 16 8, w.extractLsb' 24 8]

/-- Decodes the first instruction of any list of bytes, and answers the bytes after it (R80). -/
def decodeBytes : List Byte → Except Reject (Instr × List Byte)
  | b0 :: b1 :: b2 :: b3 :: rest => (decode (wordOfBytes b0 b1 b2 b3)).map (fun i => (i, rest))
  | _ => .error .truncated

/-- The host's question: the instruction read from an instruction whose bits are `w`, of which the table numbers
`nbits`; the bits above are 0. -/
def decodeTableWord (nbits w : Nat) : Option Instr :=
  match decodeBytes (bytesOfWord (BitVec.ofNat 32 (w % 2 ^ nbits))) with
  | .ok (i, _) => some i
  | .error _ => none

/-! ### The opcode table -/

/-- A row of the table of R97: a word is the row's instruction exactly when `w &&& mask = pattern`. -/
structure OpcodeRow where
  mnemonic : String
  mask : Word
  pattern : Word
  deriving DecidableEq, Repr

/-- The row of R97 an instruction stands in. -/
def Instr.row : Instr → OpcodeRow
  | .lui .. => ⟨"lui", 0x0000007f, 0x00000037⟩
  | .auipc .. => ⟨"auipc", 0x0000007f, 0x00000017⟩
  | .jal .. => ⟨"jal", 0x0000007f, 0x0000006f⟩
  | .jalr .. => ⟨"jalr", 0x0000707f, 0x00000067⟩
  | .beq .. => ⟨"beq", 0x0000707f, 0x00000063⟩
  | .bne .. => ⟨"bne", 0x0000707f, 0x00001063⟩
  | .blt .. => ⟨"blt", 0x0000707f, 0x00004063⟩
  | .bge .. => ⟨"bge", 0x0000707f, 0x00005063⟩
  | .bltu .. => ⟨"bltu", 0x0000707f, 0x00006063⟩
  | .bgeu .. => ⟨"bgeu", 0x0000707f, 0x00007063⟩
  | .lb .. => ⟨"lb", 0x0000707f, 0x00000003⟩
  | .lh .. => ⟨"lh", 0x0000707f, 0x00001003⟩
  | .lw .. => ⟨"lw", 0x0000707f, 0x00002003⟩
  | .lbu .. => ⟨"lbu", 0x0000707f, 0x00004003⟩
  | .lhu .. => ⟨"lhu", 0x0000707f, 0x00005003⟩
  | .sb .. => ⟨"sb", 0x0000707f, 0x00000023⟩
  | .sh .. => ⟨"sh", 0x0000707f, 0x00001023⟩
  | .sw .. => ⟨"sw", 0x0000707f, 0x00002023⟩
  | .addi .. => ⟨"addi", 0x0000707f, 0x00000013⟩
  | .slti .. => ⟨"slti", 0x0000707f, 0x00002013⟩
  | .sltiu .. => ⟨"sltiu", 0x0000707f, 0x00003013⟩
  | .xori .. => ⟨"xori", 0x0000707f, 0x00004013⟩
  | .ori .. => ⟨"ori", 0x0000707f, 0x00006013⟩
  | .andi .. => ⟨"andi", 0x0000707f, 0x00007013⟩
  | .slli .. => ⟨"slli", 0xfe00707f, 0x00001013⟩
  | .srli .. => ⟨"srli", 0xfe00707f, 0x00005013⟩
  | .srai .. => ⟨"srai", 0xfe00707f, 0x40005013⟩
  | .add .. => ⟨"add", 0xfe00707f, 0x00000033⟩
  | .sub .. => ⟨"sub", 0xfe00707f, 0x40000033⟩
  | .sll .. => ⟨"sll", 0xfe00707f, 0x00001033⟩
  | .slt .. => ⟨"slt", 0xfe00707f, 0x00002033⟩
  | .sltu .. => ⟨"sltu", 0xfe00707f, 0x00003033⟩
  | .xor .. => ⟨"xor", 0xfe00707f, 0x00004033⟩
  | .srl .. => ⟨"srl", 0xfe00707f, 0x00005033⟩
  | .sra .. => ⟨"sra", 0xfe00707f, 0x40005033⟩
  | .or .. => ⟨"or", 0xfe00707f, 0x00006033⟩
  | .and .. => ⟨"and", 0xfe00707f, 0x00007033⟩
  | .mul .. => ⟨"mul", 0xfe00707f, 0x02000033⟩
  | .mulh .. => ⟨"mulh", 0xfe00707f, 0x02001033⟩
  | .mulhsu .. => ⟨"mulhsu", 0xfe00707f, 0x02002033⟩
  | .mulhu .. => ⟨"mulhu", 0xfe00707f, 0x02003033⟩
  | .div .. => ⟨"div", 0xfe00707f, 0x02004033⟩
  | .divu .. => ⟨"divu", 0xfe00707f, 0x02005033⟩
  | .rem .. => ⟨"rem", 0xfe00707f, 0x02006033⟩
  | .remu .. => ⟨"remu", 0xfe00707f, 0x02007033⟩
  | .mret => ⟨"mret", 0xffffffff, 0x30200073⟩
  | .ecall => ⟨"ecall", 0xffffffff, 0x00000073⟩
  | .fence .. => ⟨"fence", 0x0000707f, 0x0000000f⟩
  | .fenceI .. => ⟨"fence.i", 0xfe00707f, 0x0000100f⟩

/-! ### Encoding -/

/-- Format R (R82), and the R-shamt layout with the amount in the place of `rs2` (R88). -/
def encodeR (f7 : BitVec 7) (rs2 : BitVec 5) (rs1 : Reg) (f3 : BitVec 3) (rd : Reg) (op : BitVec 7) : Word :=
  f7 ++ rs2 ++ bitsOfReg rs1 ++ f3 ++ bitsOfReg rd ++ op

/-- Format I (R83). -/
def encodeI (imm : BitVec 12) (rs1 : Reg) (f3 : BitVec 3) (rd : Reg) (op : BitVec 7) : Word :=
  imm ++ bitsOfReg rs1 ++ f3 ++ bitsOfReg rd ++ op

/-- Format S (R84). -/
def encodeS (imm : BitVec 12) (rs2 rs1 : Reg) (f3 : BitVec 3) : Word :=
  imm.extractLsb' 5 7 ++ bitsOfReg rs2 ++ bitsOfReg rs1 ++ f3 ++ imm.extractLsb' 0 5 ++ 0b0100011#7

/-- Format B (R85). -/
def encodeB (dist : BitVec 13) (rs2 rs1 : Reg) (f3 : BitVec 3) : Word :=
  dist.extractLsb' 12 1 ++ dist.extractLsb' 5 6 ++ bitsOfReg rs2 ++ bitsOfReg rs1 ++ f3 ++
    dist.extractLsb' 1 4 ++ dist.extractLsb' 11 1 ++ 0b1100011#7

/-- Format U (R86). -/
def encodeU (imm : BitVec 20) (rd : Reg) (op : BitVec 7) : Word :=
  imm ++ bitsOfReg rd ++ op

/-- Format J (R87). -/
def encodeJ (dist : BitVec 21) (rd : Reg) : Word :=
  dist.extractLsb' 20 1 ++ dist.extractLsb' 1 10 ++ dist.extractLsb' 11 1 ++ dist.extractLsb' 12 8 ++
    bitsOfReg rd ++ 0b1101111#7

/-- A register-register word (opcode 0110011). -/
def encodeOp (f7 : BitVec 7) (f3 : BitVec 3) (rd rs1 rs2 : Reg) : Word :=
  encodeR f7 (bitsOfReg rs2) rs1 f3 rd 0b0110011#7

/-- The word of an instruction. A distance's bit 0, which `Instr.wf` says is 0, has no place in the word. -/
def encode : Instr → Word
  | .lui rd imm => encodeU imm rd 0b0110111#7
  | .auipc rd imm => encodeU imm rd 0b0010111#7
  | .jal rd dist => encodeJ dist rd
  | .jalr rd rs1 imm => encodeI imm rs1 0b000#3 rd 0b1100111#7
  | .beq rs1 rs2 dist => encodeB dist rs2 rs1 0b000#3
  | .bne rs1 rs2 dist => encodeB dist rs2 rs1 0b001#3
  | .blt rs1 rs2 dist => encodeB dist rs2 rs1 0b100#3
  | .bge rs1 rs2 dist => encodeB dist rs2 rs1 0b101#3
  | .bltu rs1 rs2 dist => encodeB dist rs2 rs1 0b110#3
  | .bgeu rs1 rs2 dist => encodeB dist rs2 rs1 0b111#3
  | .lb rd rs1 imm => encodeI imm rs1 0b000#3 rd 0b0000011#7
  | .lh rd rs1 imm => encodeI imm rs1 0b001#3 rd 0b0000011#7
  | .lw rd rs1 imm => encodeI imm rs1 0b010#3 rd 0b0000011#7
  | .lbu rd rs1 imm => encodeI imm rs1 0b100#3 rd 0b0000011#7
  | .lhu rd rs1 imm => encodeI imm rs1 0b101#3 rd 0b0000011#7
  | .sb rs2 rs1 imm => encodeS imm rs2 rs1 0b000#3
  | .sh rs2 rs1 imm => encodeS imm rs2 rs1 0b001#3
  | .sw rs2 rs1 imm => encodeS imm rs2 rs1 0b010#3
  | .addi rd rs1 imm => encodeI imm rs1 0b000#3 rd 0b0010011#7
  | .slti rd rs1 imm => encodeI imm rs1 0b010#3 rd 0b0010011#7
  | .sltiu rd rs1 imm => encodeI imm rs1 0b011#3 rd 0b0010011#7
  | .xori rd rs1 imm => encodeI imm rs1 0b100#3 rd 0b0010011#7
  | .ori rd rs1 imm => encodeI imm rs1 0b110#3 rd 0b0010011#7
  | .andi rd rs1 imm => encodeI imm rs1 0b111#3 rd 0b0010011#7
  | .slli rd rs1 shamt => encodeR 0b0000000#7 shamt rs1 0b001#3 rd 0b0010011#7
  | .srli rd rs1 shamt => encodeR 0b0000000#7 shamt rs1 0b101#3 rd 0b0010011#7
  | .srai rd rs1 shamt => encodeR 0b0100000#7 shamt rs1 0b101#3 rd 0b0010011#7
  | .add rd rs1 rs2 => encodeOp 0b0000000#7 0b000#3 rd rs1 rs2
  | .sub rd rs1 rs2 => encodeOp 0b0100000#7 0b000#3 rd rs1 rs2
  | .sll rd rs1 rs2 => encodeOp 0b0000000#7 0b001#3 rd rs1 rs2
  | .slt rd rs1 rs2 => encodeOp 0b0000000#7 0b010#3 rd rs1 rs2
  | .sltu rd rs1 rs2 => encodeOp 0b0000000#7 0b011#3 rd rs1 rs2
  | .xor rd rs1 rs2 => encodeOp 0b0000000#7 0b100#3 rd rs1 rs2
  | .srl rd rs1 rs2 => encodeOp 0b0000000#7 0b101#3 rd rs1 rs2
  | .sra rd rs1 rs2 => encodeOp 0b0100000#7 0b101#3 rd rs1 rs2
  | .or rd rs1 rs2 => encodeOp 0b0000000#7 0b110#3 rd rs1 rs2
  | .and rd rs1 rs2 => encodeOp 0b0000000#7 0b111#3 rd rs1 rs2
  | .mul rd rs1 rs2 => encodeOp 0b0000001#7 0b000#3 rd rs1 rs2
  | .mulh rd rs1 rs2 => encodeOp 0b0000001#7 0b001#3 rd rs1 rs2
  | .mulhsu rd rs1 rs2 => encodeOp 0b0000001#7 0b010#3 rd rs1 rs2
  | .mulhu rd rs1 rs2 => encodeOp 0b0000001#7 0b011#3 rd rs1 rs2
  | .div rd rs1 rs2 => encodeOp 0b0000001#7 0b100#3 rd rs1 rs2
  | .divu rd rs1 rs2 => encodeOp 0b0000001#7 0b101#3 rd rs1 rs2
  | .rem rd rs1 rs2 => encodeOp 0b0000001#7 0b110#3 rd rs1 rs2
  | .remu rd rs1 rs2 => encodeOp 0b0000001#7 0b111#3 rd rs1 rs2
  | .mret => 0x30200073
  | .ecall => 0x00000073
  | .fence high low => high ++ 0b000#3 ++ low ++ 0b0001111#7
  | .fenceI mid low => 0b0000000#7 ++ mid ++ 0b001#3 ++ low ++ 0b0001111#7

end Sys2Proof
end

