-- ==== Sys2Proof/Config.lean ====
section
/-! DEFINITION. The OPEN parameters of the spec as plain data (`00_scope.md` R5, `92_eei_decisions.md`), and the one
free value. A machine's parameters are fixed for a run: they stand in `State.cfg`, which no step changes. -/

namespace Sys2Proof

/-- What a memory access is for (`20_memory.md` R60). -/
inductive AccessKind where
  | read | write | fetch
  deriving DecidableEq, Repr

/-- What backs a region (R60). -/
inductive RegionKind where
  | ram | rom
  /-- A device: its behaviour is outside the spec (R59). -/
  | device
  deriving DecidableEq, Repr

/-- One region of `MEM_MAP`: the addresses from `base` up to but not including `base + size`, and the accesses it
admits (R60). -/
structure Region where
  base : Word
  size : Nat
  kind : RegionKind
  read : Bool
  write : Bool
  fetch : Bool
  deriving DecidableEq, Repr

/-- What `raise` does (`60_exceptions.md` R245, R246). -/
inductive TrapMode where
  | fault | vector
  deriving DecidableEq, Repr

/-- The parameters. DESIGN CHOICE (log 6): `MEM_MAP` is a list of regions, of which the first that holds an address
decides, and an address in no region is admitted for nothing. -/
structure Config where
  /-- `MEM_MAP` (R60). -/
  memMap : List Region
  /-- `RESET_PC` (`10_state.md` R36). -/
  resetPc : Word
  /-- `TRAP_MODE` (R245, R246). -/
  trapMode : TrapMode
  /-- `TRAP_VECTOR` (R246). -/
  trapVector : Word
  deriving DecidableEq, Repr

/-- The parameters `State.reset` takes. `TRAP_MODE` is the default the spec offers (R245); `RESET_PC`, `MEM_MAP` (one
RAM region over the whole space, admitted for all three kinds) and `TRAP_VECTOR` are DESIGN CHOICE (logs 3, 4, 5),
unsafe: the spec leaves them OPEN. -/
def Config.offered : Config where
  memMap := [{ base := 0, size := 4294967296, kind := .ram, read := true, write := true, fetch := true }]
  resetPc := 0x00000100
  trapMode := .fault
  trapVector := 0x00000200

/-- FREE VALUE (log 7, safe): the byte a data load reads at an address that the launch state does not give and nothing
has stored to (`93_implementation_defined.md` U5, "any value", fixed once drawn). It has no body: nothing can be proved
of it. -/
opaque Config.launchByte : Word → Byte

end Sys2Proof
end

