-- ==== Sys2Proof/Machine/Memory.lean ====
section
/-! DEFINITION. Memory and address sets as sorted lists, so that equal contents are equal data (`10_state.md` R33, R34). -/

namespace Sys2Proof.Machine

/-- Memory: the bytes the launch state gave or a store wrote, by rising address. An address that is not listed has no
value of its own (log 7). -/
abbrev Memory := List Host.Cell

/-- The byte listed at an address. -/
def Memory.read? : Memory → Nat → Option Byte
  | [], _ => none
  | (k, b) :: m, a => if k = a then some b else Memory.read? m a

/-- Writes one byte, keeping the addresses in rising order. -/
def Memory.write : Memory → Nat → Byte → Memory
  | [], a, v => [(a, v)]
  | (k, b) :: m, a, v =>
    if a < k then (a, v) :: (k, b) :: m
    else if a = k then (a, v) :: m
    else (k, b) :: Memory.write m a v

/-- The canonical form: addresses strictly rising and inside the 32-bit space (R33). An unlisted address reads as no
value, so no entry can equal what an unlisted address reads as. -/
abbrev Memory.wf (m : Memory) : Prop :=
  m.Pairwise (fun c d => c.1 < d.1) ∧ ∀ c ∈ m, c.1 < 4294967296

/-- A set of byte addresses (`fetch_dirty`, R34). -/
abbrev AddrSet := List Nat

/-- Adds one address, keeping the list strictly rising. -/
def AddrSet.add : AddrSet → Nat → AddrSet
  | [], a => [a]
  | k :: l, a => if a < k then a :: k :: l else if a = k then k :: l else k :: AddrSet.add l a

/-- The canonical form of an address set. -/
abbrev AddrSet.wf (l : AddrSet) : Prop :=
  l.Pairwise (fun a b => a < b) ∧ ∀ a ∈ l, a < 4294967296

end Sys2Proof.Machine
end

