-- ==== Sys2Proof/Machine/State.lean ====
section
/-! DEFINITION. The state of the machine, the reasons a step can stop, and the state after reset (`10_state.md`). -/

namespace Sys2Proof.Machine

/-- The exceptions of `60_exceptions.md` R240, each with the info its fault result carries. -/
inductive Exception where
  /-- A control transfer to, or a fetch at, an address that is not a multiple of 4. -/
  | instructionAddressMisaligned (target : Word)
  /-- A fetch that `MEM_MAP` does not admit. -/
  | instructionAccessFault (pc : Word)
  /-- The fetched word is none of the 49 instructions. -/
  | illegalInstruction (ir : Word)
  /-- `lh`, `lhu` or `lw` at a misaligned address. -/
  | loadAddressMisaligned (ea : Word)
  /-- A load that `MEM_MAP` does not admit. -/
  | loadAccessFault (ea : Word)
  /-- `sh` or `sw` at a misaligned address. -/
  | storeAddressMisaligned (ea : Word)
  /-- A store that `MEM_MAP` does not admit. -/
  | storeAccessFault (ea : Word)
  /-- `ecall`. -/
  | environmentCall
  /-- A fetch of a byte stored to since the last `fence.i`; model-only, it always ends the run (R240). -/
  | staleFetch (pc : Word)
  /-- `IRQ_PENDING` with `mstatus.mie = 1` at an instruction boundary. -/
  | interrupt
  deriving DecidableEq, Repr

/-- Why a run ends in a fault. -/
inductive Fault where
  /-- The spec's result `Trap(E, pc, info)`: `e` with its info, raised by the instruction at `pc`. Raised by `raise`, for
  every exception under `TRAP_MODE = fault` (R245) and for `staleFetch` always (R246). Safe: nothing is said of what runs
  after it. The end state is the state before the step. -/
  | trap (e : Exception) (pc : Word)
  deriving DecidableEq, Repr

/-- Why the model gives a step no meaning. -/
inductive Refusal where
  /-- Raised by `exec` for an instruction that has no meaning yet. Safe. No instruction of this model is refused so. -/
  | notModelled (mnemonic : String)
  /-- Raised by a load, a store or a fetch at `addr` whose bytes `MEM_MAP` admits but declares as a device, whose
  behaviour is outside the spec (`20_memory.md` R59, U17). Safe. -/
  | deviceAccess (addr : Word)
  /-- Raised by the fetch at `pc` when one of its four bytes is in no launch image and nothing has stored to it
  (`93_implementation_defined.md` U5: refuse). Safe. -/
  | fetchUnloaded (pc : Word)
  deriving DecidableEq, Repr

/-- Everything the spec gives the machine (`10_state.md` section 1), with the parameters and the interrupt input. -/
structure State where
  /-- `x0` to `x31` (R20). Slot 0 is never read or written by `State.x` and `State.setX` (R21, log 12). -/
  regs : Vector Word 32
  /-- The address of the instruction being executed (R25). -/
  pc : Word
  /-- The address `mret` returns to (R29). -/
  mepc : Word
  /-- Bit 3 of `mstatus`, the interrupt enable (R30). -/
  mie : Bool
  /-- Bit 7 of `mstatus`, the previous interrupt enable (R30). -/
  mpie : Bool
  /-- The bytes of memory (R33, R40). -/
  mem : Memory
  /-- `fetch_dirty`: the addresses stored to since reset or the last `fence.i` (R34). -/
  fetchDirty : AddrSet
  /-- The samples of the input `IRQ_PENDING` still to come, the next step's first; empty is never (R243, log 8). -/
  irq : List Bool
  /-- The OPEN parameters (log 6). -/
  cfg : Config
  deriving DecidableEq, Repr

/-- The machine right after reset (R36 to R41, `70_reset_and_hazards.md` R281). The spec gives `x0`, `mie` and
`fetch_dirty`; the other registers are DESIGN CHOICE, unsafe (logs 1, 2, 3), and so are the parameters but
`TRAP_MODE` (logs 4, 5). -/
def State.reset : State where
  regs := Vector.replicate 32 0
  pc := Config.offered.resetPc
  mepc := 0
  mie := false
  mpie := false
  mem := []
  fetchDirty := []
  irq := []
  cfg := Config.offered

end Sys2Proof.Machine
end

