-- ==== Sys2Proof/Machine/Ops.lean ====
section
/-! DEFINITION. The shared operations: general registers, `pc`, memory access, fetch, taking an exception and returning
from one (`10_state.md`, `20_memory.md`, `60_exceptions.md`). -/

namespace Sys2Proof.Machine

/-- The outcome of a step of this machine. -/
abbrev StepResult := Host.Outcome State Fault Refusal

/-- What an access gives: a value, an exception to raise, or a refusal. -/
inductive Access (α : Type) where
  | ok (v : α)
  | raise (e : Exception)
  | refuse (r : Refusal)
  deriving DecidableEq, Repr

/-! ### General registers and pc -/

/-- Reads a general register; `x0` reads 0 (R21). -/
def State.x (s : State) (r : Reg) : Word := if r = 0 then 0 else s.regs[r]

/-- Writes a general register; a write of `x0` is discarded (R21). -/
def State.setX (s : State) (r : Reg) (v : Word) : State :=
  if r = 0 then s else { s with regs := s.regs.set r v }

/-- The next instruction is the one at `pc + 4`, modulo 2^32 (R26, R27). -/
def State.advance (s : State) : State := { s with pc := s.pc + 4 }

/-- A register result: `x[rd] <- v`, `pc <- pc + 4` (R131, R140, R180). -/
def State.writeRd (s : State) (rd : Reg) (v : Word) : StepResult := .next (s.setX rd v).advance

/-- The address is a multiple of `n` (R27, R54). -/
def alignedTo (n : Nat) (a : Word) : Bool := a.toNat % n == 0

/-! ### Exceptions: taking one and returning from one -/

/-- `StaleFetch` is not a hardware exception: it always ends the run (R240, R246). -/
def Exception.endsRun : Exception → Bool
  | .staleFetch _ => true
  | _ => false

/-- Trap entry (R246): `mepc <- pc`, `mpie <- mie`, `mie <- 0`, `pc <- TRAP_VECTOR`; nothing else changes. -/
def State.trapEntry (s : State) : State :=
  { s with mepc := s.pc, mpie := s.mie, mie := false, pc := s.cfg.trapVector }

/-- `raise e` in the state before the instruction, none of whose writes is done (R245 to R247): under `TRAP_MODE = fault`
the run ends in `Trap(e, pc, info)`, under `vector` the trap is entered. -/
def State.raise (s : State) (e : Exception) : StepResult :=
  match s.cfg.trapMode with
  | .fault => .fault (.trap e s.pc)
  | .vector => if e.endsRun then .fault (.trap e s.pc) else .next s.trapEntry

/-- Return from a trap: `pc <- mepc`, `mie <- mpie`, `mpie <- 1`, together (R201, R248). -/
def State.trapReturn (s : State) : State :=
  { s with pc := s.mepc, mie := s.mpie, mpie := true }

/-- A control transfer to `target`: `after`, with `pc` at the target, if it is a multiple of 4; else
`InstructionAddressMisaligned`, raised by the instruction itself with none of its writes done (R27, R160). -/
def State.transfer (s : State) (target : Word) (after : State) : StepResult :=
  if alignedTo 4 target then .next { after with pc := target }
  else s.raise (.instructionAddressMisaligned target)

/-! ### The memory map -/

/-- The addresses of a region (R60). -/
def regionHolds (r : Region) (a : Word) : Bool :=
  decide (r.base.toNat ≤ a.toNat) && decide (a.toNat < r.base.toNat + r.size)

/-- The region that decides for an address: the first that holds it (log 6). -/
def regionAt : List Region → Word → Option Region
  | [], _ => none
  | r :: rs, a => if regionHolds r a then some r else regionAt rs a

/-- The region admits accesses of this kind (R60). -/
def regionAdmits (k : AccessKind) (r : Region) : Bool :=
  match k with
  | .read => r.read
  | .write => r.write
  | .fetch => r.fetch

/-- `MEM_MAP` admits an access of this kind to the byte (R60). -/
def State.admitsByte (s : State) (k : AccessKind) (a : Word) : Bool :=
  match regionAt s.cfg.memMap a with
  | some r => regionAdmits k r
  | none => false

/-- The byte belongs to a device (R59). -/
def State.deviceByte (s : State) (a : Word) : Bool :=
  match regionAt s.cfg.memMap a with
  | some r => r.kind == .device
  | none => false

/-- Every one of the `n` bytes from `a` satisfies `p`. -/
def allBytes (p : Word → Bool) (a : Word) : Nat → Bool
  | 0 => true
  | n + 1 => allBytes p a n && p (a + BitVec.ofNat 32 n)

/-- An access is admitted only if all its bytes are (R60). -/
def State.admits (s : State) (k : AccessKind) (a : Word) (n : Nat) : Bool :=
  allBytes (s.admitsByte k) a n

/-- Every byte is ordinary memory; RAM and ROM alike (D25, log 10). -/
def State.ordinary (s : State) (a : Word) (n : Nat) : Bool :=
  allBytes (fun b => !s.deviceByte b) a n

/-! ### Bytes and words of memory -/

/-- The byte listed at an address, if there is one. -/
def State.byte? (s : State) (a : Word) : Option Byte := s.mem.read? a.toNat

/-- The byte a data load reads: the listed one, or the free value of that address (U5, log 7). -/
def State.byte (s : State) (a : Word) : Byte := (s.byte? a).getD (Config.launchByte a)

/-- The little-endian value of the `n` bytes at `a` (R51, R52). -/
def State.readLE (s : State) (a : Word) : (n : Nat) → BitVec (8 * n)
  | 0 => 0#0
  | n + 1 => s.readLE (a + 1) n ++ s.byte a

/-- `M[a+k] <- v[8k+7:8k]` for k below `n` (R53). -/
def Memory.writeLE (m : Memory) (a : Word) {w : Nat} (v : BitVec w) : Nat → Memory
  | 0 => m
  | n + 1 => (m.writeLE a v n).write (a + BitVec.ofNat 32 n).toNat (v.extractLsb' (8 * n) 8)

/-- Adds the `n` addresses from `a` (R53, R64). -/
def AddrSet.addBytes (d : AddrSet) (a : Word) : Nat → AddrSet
  | 0 => d
  | n + 1 => (d.addBytes a n).add (a + BitVec.ofNat 32 n).toNat

/-- The store itself: the bytes, and their addresses in `fetch_dirty` (R53 step 3). -/
def State.store (s : State) (a : Word) (n : Nat) (v : BitVec (8 * n)) : State :=
  { s with mem := s.mem.writeLE a v n, fetchDirty := s.fetchDirty.addBytes a n }

/-- `MemRead(a, n)` (R52), with the refusal of device bytes after its checks (R59, log 9). -/
def State.memRead (s : State) (a : Word) (n : Nat) : Access (BitVec (8 * n)) :=
  if !alignedTo n a then .raise (.loadAddressMisaligned a)
  else if !s.admits .read a n then .raise (.loadAccessFault a)
  else if !s.ordinary a n then .refuse (.deviceAccess a)
  else .ok (s.readLE a n)

/-- `MemWrite(a, n, v)` (R53), with the refusal of device bytes after its checks (R59, log 9). -/
def State.memWrite (s : State) (a : Word) (n : Nat) (v : BitVec (8 * n)) : Access State :=
  if !alignedTo n a then .raise (.storeAddressMisaligned a)
  else if !s.admits .write a n then .raise (.storeAccessFault a)
  else if !s.ordinary a n then .refuse (.deviceAccess a)
  else .ok (s.store a n v)

/-- Goes on with the value of an access, raises its exception, or refuses. -/
def State.andThen {α : Type} (s : State) (x : Access α) (k : α → StepResult) : StepResult :=
  match x with
  | .ok v => k v
  | .raise e => s.raise e
  | .refuse r => .refused r

/-! ### Fetch -/

/-- Some byte of the `n` from `a` is in `fetch_dirty` (R56 step 4). -/
def State.stale (s : State) (a : Word) (n : Nat) : Bool :=
  !allBytes (fun b => !s.fetchDirty.contains b.toNat) a n

/-- Every byte is in the launch image or was stored to (U5, log 7). -/
def State.loaded (s : State) (a : Word) (n : Nat) : Bool :=
  allBytes (fun b => (s.byte? b).isSome) a n

/-- The fetch at `pc`: R56 steps 2 to 5, with the refusals of device bytes (R59) and of bytes in no image (U5). -/
def State.fetch (s : State) : Access Word :=
  if !alignedTo 4 s.pc then .raise (.instructionAddressMisaligned s.pc)
  else if !s.admits .fetch s.pc 4 then .raise (.instructionAccessFault s.pc)
  else if s.stale s.pc 4 then .raise (.staleFetch s.pc)
  else if !s.ordinary s.pc 4 then .refuse (.deviceAccess s.pc)
  else if !s.loaded s.pc 4 then .refuse (.fetchUnloaded s.pc)
  else .ok (s.readLE s.pc 4)

/-- The input `IRQ_PENDING` at this step; past the list it is never pending (R243). -/
def State.irqPending (s : State) : Bool := s.irq.headD false

/-- The state after this step's sample of the input has been taken (log 8). -/
def State.tick (s : State) : State := { s with irq := s.irq.tail }

/-- What a step does first: the interrupt check, the fetch and the decoding, in the order of R244 and R283 (a) to (c). -/
def State.nextInstr (s : State) : Access Instr :=
  if s.irqPending && s.mie then .raise .interrupt
  else match s.fetch with
    | .ok ir =>
      match decode ir with
      | .ok i => .ok i
      | .error _ => .raise (.illegalInstruction ir)
    | .raise e => .raise e
    | .refuse r => .refuse r

/-! ### Launch -/

/-- Loads an image of (address, byte) pairs, a later pair over an earlier one. -/
def Memory.load (image : List Host.Cell) : Memory :=
  image.foldl (fun m c => m.write (c.1 % 4294967296) c.2) []

/-- The launch state of R281 for ANY parameters, any values of the registers the spec leaves unspecified (R37 to R39),
any image (R40) and any interrupt input. `State.reset` is one of these. -/
def State.launch (cfg : Config) (regs : Vector Word 32) (mepc : Word) (mpie : Bool) (image : List Host.Cell)
    (irq : List Bool) : State where
  regs := regs.set 0 0
  pc := cfg.resetPc
  mepc := mepc
  mie := false
  mpie := mpie
  mem := Memory.load image
  fetchDirty := []
  irq := irq
  cfg := cfg

/-- The byte as one RAM region that admits a fetch, and reads and writes as before (log 15). -/
def State.fetchRegion (s : State) (a : Word) : Region where
  base := a
  size := 1
  kind := .ram
  read := s.admitsByte .read a
  write := s.admitsByte .write a
  fetch := true

/-- The word stored where the next step fetches, with all that its fetch needs and nothing else: `pc` rounded down to a
multiple of 4, the four bytes there in memory, out of `fetch_dirty` and admitted for a fetch as ordinary memory, and no
interrupt taken first (log 15). -/
def State.placeWord (s : State) (w : Word) : State :=
  let a := BitVec.ofNat 32 (s.pc.toNat / 4 * 4)
  let map := s.fetchRegion a :: s.fetchRegion (a + 1) :: s.fetchRegion (a + 2) :: s.fetchRegion (a + 3) :: s.cfg.memMap
  { s with
    pc := a
    mem := s.mem.writeLE a w 4
    fetchDirty := s.fetchDirty.filter (fun b => decide (b < a.toNat) || decide (a.toNat + 4 ≤ b))
    irq := if s.irqPending && s.mie then false :: s.irq.tail else s.irq
    cfg := if s.admits .fetch a 4 && s.ordinary a 4 then s.cfg else { s.cfg with memMap := map } }

end Sys2Proof.Machine
end

