-- ==== Sys2Proof/Machine/Operands.lean ====
section
/-! DEFINITION. Operand forms: integer readings of words (`00_scope.md` R8), the five immediates as 32-bit constants
(`30_encoding.md` R90 to R94), shift amounts (R95), and the addresses instructions compute (R50, R160). -/

namespace Sys2Proof.Machine

/-- `trunc32(n)`: the integer modulo 2^32 (R8). -/
def trunc32 (n : Int) : Word := BitVec.ofInt 32 n

/-- `signed(v)` (R8). -/
def signed (v : Word) : Int := v.toInt

/-- `unsigned(v)`, as an integer (R8). -/
def unsigned (v : Word) : Int := v.toNat

/-- A sign-extended immediate of formats I, S, B and J (R90, R91, R92, R94). -/
def sext {n : Nat} (imm : BitVec n) : Word := imm.signExtend 32

/-- `imm_U`: the 20 bits above twelve zeros (R93). -/
def upper (imm : BitVec 20) : Word := imm ++ 0#12

/-- The amount of a register shift: the low five bits of the content (R95). -/
def shiftAmount (v : Word) : Nat := (v.extractLsb' 0 5).toNat

/-- The effective address of a load or store, modulo 2^32 (R50, R220). -/
def State.effAddr (s : State) (rs1 : Reg) (imm : BitVec 12) : Word := s.x rs1 + sext imm

/-- The target of a taken branch or a `jal`, from the address of the instruction itself (R160). -/
def State.relTarget (s : State) {n : Nat} (dist : BitVec n) : Word := s.pc + sext dist

/-- The target of a `jalr`: the sum with bit 0 cleared (R160, R168). -/
def State.jalrTarget (s : State) (rs1 : Reg) (imm : BitVec 12) : Word :=
  (s.x rs1 + sext imm).extractLsb' 1 31 ++ 0#1

/-- The return address a `jal` or `jalr` saves (R167, R168). -/
def State.link (s : State) : Word := s.pc + 4

end Sys2Proof.Machine
end

