-- ==== Sys2Proof/Machine/Flags.lean ====
section
/-! DEFINITION. The hardware has no flags and no condition codes (`10_state.md` R28): comparisons write 0 or 1 to a
register, or are fused into the branches. This file holds those comparisons. -/

namespace Sys2Proof.Machine

/-- `signed(a) < signed(b)` (R124, R142, R163). -/
def ltSigned (a b : Word) : Bool := decide (signed a < signed b)

/-- `unsigned(a) < unsigned(b)` (R125, R143, R165). -/
def ltUnsigned (a b : Word) : Bool := decide (unsigned a < unsigned b)

/-- A comparison's result in a register: 1 or 0 (R120). -/
def truthWord (c : Bool) : Word := if c then 1 else 0

end Sys2Proof.Machine
end

