-- ==== Sys2Proof/Machine/AluImmediate.lean ====
section
/-! DEFINITION. Register-immediate integer instructions (`41_alu_immediate.md`). -/

namespace Sys2Proof.Machine

/-- A register-immediate instruction whose result is `f x[rs1] imm_I`, the immediate sign-extended (R140). -/
def execImmediate (f : Word → Word → Word) (rd rs1 : Reg) (imm : BitVec 12) (s : State) : StepResult :=
  s.writeRd rd (f (s.x rs1) (sext imm))

/-- A shift of `x[rs1]` by a 5-bit constant (R88, R95). -/
def execShiftImmediate (f : Word → Nat → Word) (rd rs1 : Reg) (shamt : BitVec 5) (s : State) : StepResult :=
  s.writeRd rd (f (s.x rs1) shamt.toNat)

/-- `addi` (R141). -/
def execAddi (rd rs1 : Reg) (imm : BitVec 12) (s : State) : StepResult := execImmediate (· + ·) rd rs1 imm s

/-- `slti` (R142). -/
def execSlti (rd rs1 : Reg) (imm : BitVec 12) (s : State) : StepResult :=
  execImmediate (fun a b => truthWord (ltSigned a b)) rd rs1 imm s

/-- `sltiu`: the immediate is sign-extended, then read as unsigned (R143). -/
def execSltiu (rd rs1 : Reg) (imm : BitVec 12) (s : State) : StepResult :=
  execImmediate (fun a b => truthWord (ltUnsigned a b)) rd rs1 imm s

/-- `xori` (R144). -/
def execXori (rd rs1 : Reg) (imm : BitVec 12) (s : State) : StepResult := execImmediate (· ^^^ ·) rd rs1 imm s

/-- `ori` (R145). -/
def execOri (rd rs1 : Reg) (imm : BitVec 12) (s : State) : StepResult := execImmediate (· ||| ·) rd rs1 imm s

/-- `andi`: the 12-bit immediate is sign-extended (R146, conflict C1). -/
def execAndi (rd rs1 : Reg) (imm : BitVec 12) (s : State) : StepResult := execImmediate (· &&& ·) rd rs1 imm s

/-- `slli` (R147). -/
def execSlli (rd rs1 : Reg) (shamt : BitVec 5) (s : State) : StepResult :=
  execShiftImmediate (fun a n => a <<< n) rd rs1 shamt s

/-- `srli` (R148). -/
def execSrli (rd rs1 : Reg) (shamt : BitVec 5) (s : State) : StepResult :=
  execShiftImmediate (fun a n => a >>> n) rd rs1 shamt s

/-- `srai` (R149). -/
def execSrai (rd rs1 : Reg) (shamt : BitVec 5) (s : State) : StepResult :=
  execShiftImmediate (fun a n => a.sshiftRight n) rd rs1 shamt s

/-- `lui` (R150). -/
def execLui (rd : Reg) (imm : BitVec 20) (s : State) : StepResult := s.writeRd rd (upper imm)

/-- `auipc`: the sum with the address of the `auipc` itself (R151). -/
def execAuipc (rd : Reg) (imm : BitVec 20) (s : State) : StepResult := s.writeRd rd (s.pc + upper imm)

end Sys2Proof.Machine
end

