-- ==== Sys2Proof/Machine/AluRegister.lean ====
section
/-! DEFINITION. Register-register integer instructions (`40_alu_register.md`). -/

namespace Sys2Proof.Machine

/-- A register-register instruction whose result is `f x[rs1] x[rs2]` (R131, R180). -/
def execBinary (f : Word → Word → Word) (rd rs1 rs2 : Reg) (s : State) : StepResult :=
  s.writeRd rd (f (s.x rs1) (s.x rs2))

/-- `add` (R121). -/
def execAdd (rd rs1 rs2 : Reg) (s : State) : StepResult := execBinary (· + ·) rd rs1 rs2 s

/-- `sub` (R122). -/
def execSub (rd rs1 rs2 : Reg) (s : State) : StepResult := execBinary (· - ·) rd rs1 rs2 s

/-- `sll` (R123). -/
def execSll (rd rs1 rs2 : Reg) (s : State) : StepResult :=
  execBinary (fun a b => a <<< shiftAmount b) rd rs1 rs2 s

/-- `slt` (R124). -/
def execSlt (rd rs1 rs2 : Reg) (s : State) : StepResult :=
  execBinary (fun a b => truthWord (ltSigned a b)) rd rs1 rs2 s

/-- `sltu` (R125). -/
def execSltu (rd rs1 rs2 : Reg) (s : State) : StepResult :=
  execBinary (fun a b => truthWord (ltUnsigned a b)) rd rs1 rs2 s

/-- `xor` (R126). -/
def execXor (rd rs1 rs2 : Reg) (s : State) : StepResult := execBinary (· ^^^ ·) rd rs1 rs2 s

/-- `srl` (R127). -/
def execSrl (rd rs1 rs2 : Reg) (s : State) : StepResult :=
  execBinary (fun a b => a >>> shiftAmount b) rd rs1 rs2 s

/-- `sra` (R128). -/
def execSra (rd rs1 rs2 : Reg) (s : State) : StepResult :=
  execBinary (fun a b => a.sshiftRight (shiftAmount b)) rd rs1 rs2 s

/-- `or` (R129). -/
def execOr (rd rs1 rs2 : Reg) (s : State) : StepResult := execBinary (· ||| ·) rd rs1 rs2 s

/-- `and` (R130). -/
def execAnd (rd rs1 rs2 : Reg) (s : State) : StepResult := execBinary (· &&& ·) rd rs1 rs2 s

end Sys2Proof.Machine
end

