-- ==== Sys2Proof/Machine/BranchJump.lean ====
section
/-! DEFINITION. Branches and jumps (`42_branch_jump.md`). -/

namespace Sys2Proof.Machine

/-- A conditional branch: to the target if the condition holds of `x[rs1]` and `x[rs2]`, else to `pc + 4`; a branch not
taken never raises (R160, R170). -/
def execBranch (cond : Word → Word → Bool) (rs1 rs2 : Reg) (dist : BitVec 13) (s : State) : StepResult :=
  if cond (s.x rs1) (s.x rs2) then s.transfer (s.relTarget dist) s else .next s.advance

/-- `beq` (R161). -/
def execBeq (rs1 rs2 : Reg) (dist : BitVec 13) (s : State) : StepResult :=
  execBranch (fun a b => a == b) rs1 rs2 dist s

/-- `bne` (R162). -/
def execBne (rs1 rs2 : Reg) (dist : BitVec 13) (s : State) : StepResult :=
  execBranch (fun a b => !(a == b)) rs1 rs2 dist s

/-- `blt` (R163). -/
def execBlt (rs1 rs2 : Reg) (dist : BitVec 13) (s : State) : StepResult :=
  execBranch ltSigned rs1 rs2 dist s

/-- `bge` (R164). -/
def execBge (rs1 rs2 : Reg) (dist : BitVec 13) (s : State) : StepResult :=
  execBranch (fun a b => !ltSigned a b) rs1 rs2 dist s

/-- `bltu` (R165). -/
def execBltu (rs1 rs2 : Reg) (dist : BitVec 13) (s : State) : StepResult :=
  execBranch ltUnsigned rs1 rs2 dist s

/-- `bgeu` (R166). -/
def execBgeu (rs1 rs2 : Reg) (dist : BitVec 13) (s : State) : StepResult :=
  execBranch (fun a b => !ltUnsigned a b) rs1 rs2 dist s

/-- `jal`: the link register is not written when the target is misaligned (R160, R167). -/
def execJal (rd : Reg) (dist : BitVec 21) (s : State) : StepResult :=
  s.transfer (s.relTarget dist) (s.setX rd s.link)

/-- `jalr`: the target is computed from the old `x[rs1]` (R9, R160, R168). -/
def execJalr (rd rs1 : Reg) (imm : BitVec 12) (s : State) : StepResult :=
  s.transfer (s.jalrTarget rs1 imm) (s.setX rd s.link)

end Sys2Proof.Machine
end

