-- ==== Sys2Proof/Machine/LoadStore.lean ====
section
/-! DEFINITION. Loads and stores (`45_load_store.md`). -/

namespace Sys2Proof.Machine

/-- A load of `n` bytes, extended to 32 bits by `ext`: the access is made, and can raise, even when `rd` is `x0` (R220). -/
def execLoad (n : Nat) (ext : BitVec (8 * n) → Word) (rd rs1 : Reg) (imm : BitVec 12) (s : State) : StepResult :=
  s.andThen (s.memRead (s.effAddr rs1 imm) n) (fun v => s.writeRd rd (ext v))

/-- A store of the low `n` bytes of `x[rs2]` (R220). -/
def execStore (n : Nat) (rs2 rs1 : Reg) (imm : BitVec 12) (s : State) : StepResult :=
  s.andThen (s.memWrite (s.effAddr rs1 imm) n ((s.x rs2).setWidth (8 * n))) (fun t => .next t.advance)

/-- `lb` (R221). -/
def execLb (rd rs1 : Reg) (imm : BitVec 12) (s : State) : StepResult :=
  execLoad 1 (fun b => b.signExtend 32) rd rs1 imm s

/-- `lh` (R222). -/
def execLh (rd rs1 : Reg) (imm : BitVec 12) (s : State) : StepResult :=
  execLoad 2 (fun h => h.signExtend 32) rd rs1 imm s

/-- `lw` (R223). -/
def execLw (rd rs1 : Reg) (imm : BitVec 12) (s : State) : StepResult :=
  execLoad 4 (fun w => w) rd rs1 imm s

/-- `lbu` (R224). -/
def execLbu (rd rs1 : Reg) (imm : BitVec 12) (s : State) : StepResult :=
  execLoad 1 (fun b => b.setWidth 32) rd rs1 imm s

/-- `lhu` (R225). -/
def execLhu (rd rs1 : Reg) (imm : BitVec 12) (s : State) : StepResult :=
  execLoad 2 (fun h => h.setWidth 32) rd rs1 imm s

/-- `sb` (R226). -/
def execSb (rs2 rs1 : Reg) (imm : BitVec 12) (s : State) : StepResult := execStore 1 rs2 rs1 imm s

/-- `sh` (R227). -/
def execSh (rs2 rs1 : Reg) (imm : BitVec 12) (s : State) : StepResult := execStore 2 rs2 rs1 imm s

/-- `sw` (R228). -/
def execSw (rs2 rs1 : Reg) (imm : BitVec 12) (s : State) : StepResult := execStore 4 rs2 rs1 imm s

end Sys2Proof.Machine
end

