-- ==== Sys2Proof/Machine/MulDiv.lean ====
section
/-! DEFINITION. Multiply and divide (`43_muldiv.md`). Products and quotients are computed over the integers and narrowed
at the end. The corner results of division are the ones rule R189 fixes, which the spec takes from general knowledge
(PRESUMED by the spec, D6 and D7, log 11). -/

namespace Sys2Proof.Machine

/-- Bits 63:32 of the 64-bit two's-complement form of a product (R182 to R184). -/
def highHalf (p : Int) : Word := (BitVec.ofInt 64 p).extractLsb' 32 32

/-- The signed quotient: truncated toward zero, 0xFFFFFFFF for a zero divisor, 0x80000000 for -2^31 / -1 (R185, R189). -/
def divSigned (a b : Word) : Word :=
  if signed b = 0 then 0xFFFFFFFF
  else if signed a = -2147483648 ∧ signed b = -1 then 0x80000000
  else trunc32 ((signed a).tdiv (signed b))

/-- The unsigned quotient; 0xFFFFFFFF for a zero divisor (R186, R189). -/
def divUnsigned (a b : Word) : Word :=
  if unsigned b = 0 then 0xFFFFFFFF else trunc32 (unsigned a / unsigned b)

/-- The signed remainder of the truncated quotient; the dividend for a zero divisor, 0 for -2^31 / -1 (R187, R189). -/
def remSigned (a b : Word) : Word :=
  if signed b = 0 then a
  else if signed a = -2147483648 ∧ signed b = -1 then 0
  else trunc32 (signed a - (signed a).tdiv (signed b) * signed b)

/-- The unsigned remainder; the dividend for a zero divisor (R188, R189). -/
def remUnsigned (a b : Word) : Word :=
  if unsigned b = 0 then a else trunc32 (unsigned a - unsigned a / unsigned b * unsigned b)

/-- `mul` (R181). -/
def execMul (rd rs1 rs2 : Reg) (s : State) : StepResult :=
  execBinary (fun a b => trunc32 (unsigned a * unsigned b)) rd rs1 rs2 s

/-- `mulh` (R182). -/
def execMulh (rd rs1 rs2 : Reg) (s : State) : StepResult :=
  execBinary (fun a b => highHalf (signed a * signed b)) rd rs1 rs2 s

/-- `mulhsu`: `rs1` signed, `rs2` unsigned (R183). -/
def execMulhsu (rd rs1 rs2 : Reg) (s : State) : StepResult :=
  execBinary (fun a b => highHalf (signed a * unsigned b)) rd rs1 rs2 s

/-- `mulhu` (R184). -/
def execMulhu (rd rs1 rs2 : Reg) (s : State) : StepResult :=
  execBinary (fun a b => highHalf (unsigned a * unsigned b)) rd rs1 rs2 s

/-- `div` (R185). -/
def execDiv (rd rs1 rs2 : Reg) (s : State) : StepResult := execBinary divSigned rd rs1 rs2 s

/-- `divu` (R186). -/
def execDivu (rd rs1 rs2 : Reg) (s : State) : StepResult := execBinary divUnsigned rd rs1 rs2 s

/-- `rem` (R187). -/
def execRem (rd rs1 rs2 : Reg) (s : State) : StepResult := execBinary remSigned rd rs1 rs2 s

/-- `remu` (R188). -/
def execRemu (rd rs1 rs2 : Reg) (s : State) : StepResult := execBinary remUnsigned rd rs1 rs2 s

end Sys2Proof.Machine
end

