-- ==== Sys2Proof/Machine/System.lean ====
section
/-! DEFINITION. System instructions (`44_system.md`). There is one privilege mode, so none is refused for lack of it
(R200, `60_exceptions.md` R249). -/

namespace Sys2Proof.Machine

/-- `mret`: return from a trap; a misaligned `mepc` raises and changes neither `pc` nor `mstatus` (R201). -/
def execMret (s : State) : StepResult := s.transfer s.mepc s.trapReturn

/-- `ecall`: raises `EnvironmentCall` at its own address (R202). -/
def execEcall (s : State) : StepResult := s.raise .environmentCall

/-- `fence`: every access is already ordered, so only `pc` advances (R63, R203). -/
def execFence (s : State) : StepResult := .next s.advance

/-- `fence.i`: `fetch_dirty` becomes empty (R64, R204). -/
def execFenceI (s : State) : StepResult := .next { s.advance with fetchDirty := [] }

end Sys2Proof.Machine
end

