-- ==== Sys2Proof/Machine/Step.lean ====
section
/-! DEFINITION. The step function (`70_reset_and_hazards.md` R283), and the host's placement of one instruction. -/

namespace Sys2Proof.Machine

/-- One step: the interrupt check, fetch and decoding of `State.nextInstr`, then the instruction's meaning, in the state
whose interrupt sample has been taken. -/
def step (s : State) : Host.Outcome State Fault Refusal :=
  s.tick.andThen s.nextInstr (fun i => exec i s.tick)

/-- `s` with the instruction word of `w` (its low `nbits` bits, zeros above) placed where the next step fetches
(`State.placeWord`). -/
def State.withFetchWord (s : State) (nbits w : Nat) : State := s.placeWord (BitVec.ofNat 32 (w % 2 ^ nbits))

end Sys2Proof.Machine
end

