-- ==== Sys2Proof/Safety.lean ====
section
/-! DEFINITION. The terms claims use: the invariant of the machine, what a step leaves unchanged, the result of an
instruction of each shape, taking an exception, and how a run ends (`70_reset_and_hazards.md` R285). -/

namespace Sys2Proof

/-! ### What an instruction reads and writes (`10_state.md` R22, R23) -/

/-- The general register an instruction names as its destination. -/
def Instr.rd? : Instr → Option Reg
  | .lui rd _ | .auipc rd _ | .jal rd _ | .jalr rd _ _ => some rd
  | .lb rd _ _ | .lh rd _ _ | .lw rd _ _ | .lbu rd _ _ | .lhu rd _ _ => some rd
  | .addi rd _ _ | .slti rd _ _ | .sltiu rd _ _ | .xori rd _ _ | .ori rd _ _ | .andi rd _ _ => some rd
  | .slli rd _ _ | .srli rd _ _ | .srai rd _ _ => some rd
  | .add rd _ _ | .sub rd _ _ | .sll rd _ _ | .slt rd _ _ | .sltu rd _ _ => some rd
  | .xor rd _ _ | .srl rd _ _ | .sra rd _ _ | .or rd _ _ | .and rd _ _ => some rd
  | .mul rd _ _ | .mulh rd _ _ | .mulhsu rd _ _ | .mulhu rd _ _ => some rd
  | .div rd _ _ | .divu rd _ _ | .rem rd _ _ | .remu rd _ _ => some rd
  | .beq .. | .bne .. | .blt .. | .bge .. | .bltu .. | .bgeu .. | .sb .. | .sh .. | .sw .. => none
  | .mret | .ecall | .fence .. | .fenceI .. => none

/-- The general registers an instruction names as its sources. -/
def Instr.sources : Instr → List Reg
  | .jalr _ rs1 _ | .lb _ rs1 _ | .lh _ rs1 _ | .lw _ rs1 _ | .lbu _ rs1 _ | .lhu _ rs1 _ => [rs1]
  | .addi _ rs1 _ | .slti _ rs1 _ | .sltiu _ rs1 _ | .xori _ rs1 _ | .ori _ rs1 _ | .andi _ rs1 _ => [rs1]
  | .slli _ rs1 _ | .srli _ rs1 _ | .srai _ rs1 _ => [rs1]
  | .beq rs1 rs2 _ | .bne rs1 rs2 _ | .blt rs1 rs2 _ | .bge rs1 rs2 _ | .bltu rs1 rs2 _ | .bgeu rs1 rs2 _ => [rs1, rs2]
  | .sb rs2 rs1 _ | .sh rs2 rs1 _ | .sw rs2 rs1 _ => [rs1, rs2]
  | .add _ rs1 rs2 | .sub _ rs1 rs2 | .sll _ rs1 rs2 | .slt _ rs1 rs2 | .sltu _ rs1 rs2 => [rs1, rs2]
  | .xor _ rs1 rs2 | .srl _ rs1 rs2 | .sra _ rs1 rs2 | .or _ rs1 rs2 | .and _ rs1 rs2 => [rs1, rs2]
  | .mul _ rs1 rs2 | .mulh _ rs1 rs2 | .mulhsu _ rs1 rs2 | .mulhu _ rs1 rs2 => [rs1, rs2]
  | .div _ rs1 rs2 | .divu _ rs1 rs2 | .rem _ rs1 rs2 | .remu _ rs1 rs2 => [rs1, rs2]
  | .lui .. | .auipc .. | .jal .. | .mret | .ecall | .fence .. | .fenceI .. => []

/-- The address an instruction stores to, and how many bytes (R50, R57). -/
def Instr.storesTo (s : Machine.State) : Instr → Option (Word × Nat)
  | .sb _ rs1 imm => some (s.effAddr rs1 imm, 1)
  | .sh _ rs1 imm => some (s.effAddr rs1 imm, 2)
  | .sw _ rs1 imm => some (s.effAddr rs1 imm, 4)
  | .lui .. | .auipc .. | .jal .. | .jalr .. | .beq .. | .bne .. | .blt .. | .bge .. | .bltu .. | .bgeu .. => none
  | .lb .. | .lh .. | .lw .. | .lbu .. | .lhu .. => none
  | .addi .. | .slti .. | .sltiu .. | .xori .. | .ori .. | .andi .. | .slli .. | .srli .. | .srai .. => none
  | .add .. | .sub .. | .sll .. | .slt .. | .sltu .. | .xor .. | .srl .. | .sra .. | .or .. | .and .. => none
  | .mul .. | .mulh .. | .mulhsu .. | .mulhu .. | .div .. | .divu .. | .rem .. | .remu .. => none
  | .mret | .ecall | .fence .. | .fenceI .. => none

end Sys2Proof

namespace Sys2Proof.Machine

/-! ### The invariant -/

/-- The spec's premise on the parameter `TRAP_VECTOR`, used under `TRAP_MODE = vector` only: a multiple of 4 (R246). -/
def trapVectorAligned (c : Config) : Prop := c.trapMode = .vector → alignedTo 4 c.trapVector = true

/-- What every step keeps: memory and `fetch_dirty` in canonical form (R33, R34), every address of `fetch_dirty` one that
was stored to (R34), the slot of `x0` zero (R21), `pc` a multiple of 4 (R27), and the premise on `TRAP_VECTOR`. -/
structure State.Inv (s : State) : Prop where
  memory : s.mem.wf
  dirty : s.fetchDirty.wf
  dirtyListed : ∀ a ∈ s.fetchDirty, (s.mem.read? a).isSome = true
  zeroSlot : s.regs[0] = 0
  pcAligned : alignedTo 4 s.pc = true
  vector : trapVectorAligned s.cfg

/-! ### Frames -/

/-- Every general register reads as before. -/
def SameRegisters (s t : State) : Prop := ∀ r, t.x r = s.x r

/-- Every byte of memory is as before, and so is `fetch_dirty`. -/
def SameMemory (s t : State) : Prop := (∀ a, t.byte? a = s.byte? a) ∧ t.fetchDirty = s.fetchDirty

/-- The control registers are as before. -/
def SameControl (s t : State) : Prop := t.mepc = s.mepc ∧ t.mie = s.mie ∧ t.mpie = s.mpie

/-- The parameters and the interrupt input are as before. -/
def SameEnvironment (s t : State) : Prop := t.cfg = s.cfg ∧ t.irq = s.irq

/-! ### Results -/

/-- `t` is `s` with `v` in `x[rd]` (nowhere, if `rd` is `x0`) and nothing else changed but `pc`, which is `next`. -/
def RegisterUpdate (s : State) (rd : Reg) (v next : Word) (t : State) : Prop :=
  t.pc = next ∧ (rd ≠ 0 → t.x rd = v) ∧ t.x 0 = 0 ∧ (∀ r, r ≠ rd → t.x r = s.x r) ∧
    SameMemory s t ∧ SameControl s t ∧ SameEnvironment s t

/-- The outcome is a next state that differs from `s` in `x[rd]`, which is `v`, and in `pc`, which is `pc + 4`. -/
def RegisterResult (s : State) (rd : Reg) (v : Word) (o : StepResult) : Prop :=
  ∃ t, o = .next t ∧ RegisterUpdate s rd v (s.pc + 4) t

/-- The outcome is a next state that differs from `s` in `pc` only, which is `next`. -/
def JumpResult (s : State) (next : Word) (o : StepResult) : Prop :=
  ∃ t, o = .next t ∧ t.pc = next ∧ SameRegisters s t ∧ SameMemory s t ∧ SameControl s t ∧ SameEnvironment s t

/-- The outcome is a next state in which the `n` bytes at `a` are those of `v`, least significant first, and are in
`fetch_dirty`, and which differs from `s` in nothing else but `pc`, which is `pc + 4`. -/
def StoreResult (s : State) (a : Word) (n : Nat) (v : Word) (o : StepResult) : Prop :=
  ∃ t, o = .next t ∧ t.pc = s.pc + 4 ∧
    (∀ k, k < n → t.byte? (a + BitVec.ofNat 32 k) = some (v.extractLsb' (8 * k) 8)) ∧
    (∀ b, (∀ k, k < n → b ≠ a + BitVec.ofNat 32 k) → t.byte? b = s.byte? b) ∧
    (∀ b : Word, b.toNat ∈ t.fetchDirty ↔ b.toNat ∈ s.fetchDirty ∨ ∃ k, k < n ∧ b = a + BitVec.ofNat 32 k) ∧
    SameRegisters s t ∧ SameControl s t ∧ SameEnvironment s t

/-! ### Exceptions -/

/-- `t` is `s` after trap entry: `mepc`, `mpie`, `mie` and `pc` as R246 says, everything else as before. -/
def TrapEntered (s t : State) : Prop :=
  t.mepc = s.pc ∧ t.mpie = s.mie ∧ t.mie = false ∧ t.pc = s.cfg.trapVector ∧
    SameRegisters s t ∧ SameMemory s t ∧ SameEnvironment s t

/-- The outcome is that of `raise e` in `s`: the run ends in `Trap(e, pc, info)` under `TRAP_MODE = fault` and for
`StaleFetch` (R245, R246), and the trap is entered under `vector` otherwise (R246). -/
def Raises (s : State) (e : Exception) (o : StepResult) : Prop :=
  (s.cfg.trapMode = .fault → o = .fault (.trap e s.pc)) ∧
  (s.cfg.trapMode = .vector → (∃ p, e = .staleFetch p) → o = .fault (.trap e s.pc)) ∧
  (s.cfg.trapMode = .vector → (∀ p, e ≠ .staleFetch p) → ∃ t, o = .next t ∧ TrapEntered s t)

/-! ### Memory that an access may use -/

/-- `MEM_MAP` admits the access to each of the `n` bytes from `a` (R60). -/
def Admitted (s : State) (k : AccessKind) (a : Word) (n : Nat) : Prop :=
  ∀ j, j < n → s.admitsByte k (a + BitVec.ofNat 32 j) = true

/-- None of the `n` bytes from `a` is a device's (R59). -/
def Ordinary (s : State) (a : Word) (n : Nat) : Prop :=
  ∀ j, j < n → s.deviceByte (a + BitVec.ofNat 32 j) = false

/-- The four bytes at `pc` are `w`, least significant first, in ordinary memory that admits a fetch, none stored to since
the last `fence.i`, and `pc` is a multiple of 4 (R56). -/
structure Fetches (s : State) (w : Word) : Prop where
  aligned : s.pc.toNat % 4 = 0
  admitted : Admitted s .fetch s.pc 4
  ordinary : Ordinary s s.pc 4
  fresh : ∀ j, j < 4 → (s.pc + BitVec.ofNat 32 j).toNat ∉ s.fetchDirty
  bytes : ∀ j, j < 4 → s.byte? (s.pc + BitVec.ofNat 32 j) = some (w.extractLsb' (8 * j) 8)

/-- No interrupt is taken at this step (R243). -/
def NoInterrupt (s : State) : Prop := s.mie = false ∨ s.irqPending = false

/-! ### The shapes of instruction rules -/

/-- Every word that matches the row decodes to the instruction with the fields of that word (R97). -/
def EncodedAs (mask pattern : Word) (instr : Word → Instr) : Prop :=
  ∀ w : Word, w &&& mask = pattern → decode w = .ok (instr w)

/-- A format-R row with this pattern decodes to `mk rd rs1 rs2` (R82). -/
def EncodedR (pattern : Word) (mk : Reg → Reg → Reg → Instr) : Prop :=
  EncodedAs 0xfe00707f pattern fun w => mk (rdField w) (rs1Field w) (rs2Field w)

/-- A format-I row with this pattern decodes to `mk rd rs1 imm` (R83). -/
def EncodedI (pattern : Word) (mk : Reg → Reg → BitVec 12 → Instr) : Prop :=
  EncodedAs 0x0000707f pattern fun w => mk (rdField w) (rs1Field w) (immI w)

/-- A format-S row with this pattern decodes to `mk rs2 rs1 imm` (R84). -/
def EncodedS (pattern : Word) (mk : Reg → Reg → BitVec 12 → Instr) : Prop :=
  EncodedAs 0x0000707f pattern fun w => mk (rs2Field w) (rs1Field w) (immS w)

/-- A format-B row with this pattern decodes to `mk rs1 rs2 dist` (R85). -/
def EncodedB (pattern : Word) (mk : Reg → Reg → BitVec 13 → Instr) : Prop :=
  EncodedAs 0x0000707f pattern fun w => mk (rs1Field w) (rs2Field w) (immB w)

/-- A branch whose condition on `x[rs1]` and `x[rs2]` is `cond` (R160, R170): taken to an aligned target, taken to a
misaligned one, not taken. The target is the sum of `pc` and the signed distance, modulo 2^32. -/
def BranchRule (mk : Reg → Reg → BitVec 13 → Instr) (cond : Word → Word → Prop) : Prop :=
  ∀ (s : State) (rs1 rs2 : Reg) (dist : BitVec 13) (target : Word), target = trunc32 (unsigned s.pc + dist.toInt) →
    (cond (s.x rs1) (s.x rs2) → target.toNat % 4 = 0 → JumpResult s target (exec (mk rs1 rs2 dist) s)) ∧
    (cond (s.x rs1) (s.x rs2) → target.toNat % 4 ≠ 0 →
      Raises s (.instructionAddressMisaligned target) (exec (mk rs1 rs2 dist) s)) ∧
    (¬ cond (s.x rs1) (s.x rs2) → JumpResult s (s.pc + 4) (exec (mk rs1 rs2 dist) s))

/-- A load of `n` bytes whose result is `value s ea` (R50, R52, R220): an aligned admitted access to ordinary memory, and
an aligned one that is not admitted. The effective address is the sum modulo 2^32. -/
def LoadRule (mk : Reg → Reg → BitVec 12 → Instr) (n : Nat) (value : State → Word → Word) : Prop :=
  ∀ (s : State) (rd rs1 : Reg) (imm : BitVec 12) (ea : Word), ea = trunc32 (unsigned (s.x rs1) + imm.toInt) →
    (ea.toNat % n = 0 → Admitted s .read ea n → Ordinary s ea n →
      RegisterResult s rd (value s ea) (exec (mk rd rs1 imm) s)) ∧
    (ea.toNat % n = 0 → ¬ Admitted s .read ea n → Raises s (.loadAccessFault ea) (exec (mk rd rs1 imm) s))

/-- A load of `n` bytes, 2 or 4, at a misaligned address (R52, R55). -/
def LoadMisalignedRule (mk : Reg → Reg → BitVec 12 → Instr) (n : Nat) : Prop :=
  ∀ (s : State) (rd rs1 : Reg) (imm : BitVec 12) (ea : Word), ea = trunc32 (unsigned (s.x rs1) + imm.toInt) →
    ea.toNat % n ≠ 0 → Raises s (.loadAddressMisaligned ea) (exec (mk rd rs1 imm) s)

/-- A store of the low `n` bytes of `x[rs2]` (R50, R53, R220), with the same two cases. -/
def StoreRule (mk : Reg → Reg → BitVec 12 → Instr) (n : Nat) : Prop :=
  ∀ (s : State) (rs2 rs1 : Reg) (imm : BitVec 12) (ea : Word), ea = trunc32 (unsigned (s.x rs1) + imm.toInt) →
    (ea.toNat % n = 0 → Admitted s .write ea n → Ordinary s ea n →
      StoreResult s ea n (s.x rs2) (exec (mk rs2 rs1 imm) s)) ∧
    (ea.toNat % n = 0 → ¬ Admitted s .write ea n → Raises s (.storeAccessFault ea) (exec (mk rs2 rs1 imm) s))

/-- A store of `n` bytes, 2 or 4, at a misaligned address (R53, R55). -/
def StoreMisalignedRule (mk : Reg → Reg → BitVec 12 → Instr) (n : Nat) : Prop :=
  ∀ (s : State) (rs2 rs1 : Reg) (imm : BitVec 12) (ea : Word), ea = trunc32 (unsigned (s.x rs1) + imm.toInt) →
    ea.toNat % n ≠ 0 → Raises s (.storeAddressMisaligned ea) (exec (mk rs2 rs1 imm) s)

/-- A misaligned branch target (R241). -/
def BranchMayRaise (s : State) (taken : Prop) (dist : BitVec 13) (e : Exception) : Prop :=
  taken ∧ (s.relTarget dist).toNat % 4 ≠ 0 ∧ e = .instructionAddressMisaligned (s.relTarget dist)

/-- A load's exceptions (R241). -/
def LoadMayRaise (s : State) (ea : Word) (n : Nat) (e : Exception) : Prop :=
  (ea.toNat % n ≠ 0 ∧ e = .loadAddressMisaligned ea) ∨ (¬ Admitted s .read ea n ∧ e = .loadAccessFault ea)

/-- A store's exceptions (R241). -/
def StoreMayRaise (s : State) (ea : Word) (n : Nat) (e : Exception) : Prop :=
  (ea.toNat % n ≠ 0 ∧ e = .storeAddressMisaligned ea) ∨ (¬ Admitted s .write ea n ∧ e = .storeAccessFault ea)

/-- The table of R241: which exceptions an instruction can raise, and when. -/
def MayRaise (s : State) : Instr → Exception → Prop
  | .beq rs1 rs2 d, e => BranchMayRaise s (s.x rs1 = s.x rs2) d e
  | .bne rs1 rs2 d, e => BranchMayRaise s (s.x rs1 ≠ s.x rs2) d e
  | .blt rs1 rs2 d, e => BranchMayRaise s (signed (s.x rs1) < signed (s.x rs2)) d e
  | .bge rs1 rs2 d, e => BranchMayRaise s (signed (s.x rs1) ≥ signed (s.x rs2)) d e
  | .bltu rs1 rs2 d, e => BranchMayRaise s (unsigned (s.x rs1) < unsigned (s.x rs2)) d e
  | .bgeu rs1 rs2 d, e => BranchMayRaise s (unsigned (s.x rs1) ≥ unsigned (s.x rs2)) d e
  | .jal _ d, e => (s.relTarget d).toNat % 4 ≠ 0 ∧ e = .instructionAddressMisaligned (s.relTarget d)
  | .jalr _ rs1 imm, e =>
    (s.jalrTarget rs1 imm).toNat % 4 ≠ 0 ∧ e = .instructionAddressMisaligned (s.jalrTarget rs1 imm)
  | .mret, e => s.mepc.toNat % 4 ≠ 0 ∧ e = .instructionAddressMisaligned s.mepc
  | .lb _ rs1 imm, e | .lbu _ rs1 imm, e => LoadMayRaise s (s.effAddr rs1 imm) 1 e
  | .lh _ rs1 imm, e | .lhu _ rs1 imm, e => LoadMayRaise s (s.effAddr rs1 imm) 2 e
  | .lw _ rs1 imm, e => LoadMayRaise s (s.effAddr rs1 imm) 4 e
  | .sb _ rs1 imm, e => StoreMayRaise s (s.effAddr rs1 imm) 1 e
  | .sh _ rs1 imm, e => StoreMayRaise s (s.effAddr rs1 imm) 2 e
  | .sw _ rs1 imm, e => StoreMayRaise s (s.effAddr rs1 imm) 4 e
  | .ecall, e => e = .environmentCall
  | .lui .., _ | .auipc .., _ | .fence .., _ | .fenceI .., _ => False
  | .addi .., _ | .slti .., _ | .sltiu .., _ | .xori .., _ | .ori .., _ | .andi .., _ => False
  | .slli .., _ | .srli .., _ | .srai .., _ => False
  | .add .., _ | .sub .., _ | .sll .., _ | .slt .., _ | .sltu .., _ | .xor .., _ | .srl .., _ | .sra .., _ => False
  | .or .., _ | .and .., _ => False
  | .mul .., _ | .mulh .., _ | .mulhsu .., _ | .mulhu .., _ | .div .., _ | .divu .., _ | .rem .., _ | .remu .., _ => False

/-- The next `pc` of an instruction that raises nothing (R26). -/
def nextPc (s : State) : Instr → Word
  | .jal _ d => s.relTarget d
  | .jalr _ rs1 imm => s.jalrTarget rs1 imm
  | .mret => s.mepc
  | .beq rs1 rs2 d => if s.x rs1 = s.x rs2 then s.relTarget d else s.pc + 4
  | .bne rs1 rs2 d => if s.x rs1 ≠ s.x rs2 then s.relTarget d else s.pc + 4
  | .blt rs1 rs2 d => if signed (s.x rs1) < signed (s.x rs2) then s.relTarget d else s.pc + 4
  | .bge rs1 rs2 d => if signed (s.x rs1) ≥ signed (s.x rs2) then s.relTarget d else s.pc + 4
  | .bltu rs1 rs2 d => if unsigned (s.x rs1) < unsigned (s.x rs2) then s.relTarget d else s.pc + 4
  | .bgeu rs1 rs2 d => if unsigned (s.x rs1) ≥ unsigned (s.x rs2) then s.relTarget d else s.pc + 4
  | .lui .. | .auipc .. | .lb .. | .lh .. | .lw .. | .lbu .. | .lhu .. | .sb .. | .sh .. | .sw .. => s.pc + 4
  | .addi .. | .slti .. | .sltiu .. | .xori .. | .ori .. | .andi .. | .slli .. | .srli .. | .srai .. => s.pc + 4
  | .add .. | .sub .. | .sll .. | .slt .. | .sltu .. | .xor .. | .srl .. | .sra .. | .or .. | .and .. => s.pc + 4
  | .mul .. | .mulh .. | .mulhsu .. | .mulhu .. | .div .. | .divu .. | .rem .. | .remu .. => s.pc + 4
  | .ecall | .fence .. | .fenceI .. => s.pc + 4

/-! ### Comparing runs -/

/-- The state with `TRAP_MODE` set. -/
def State.inMode (s : State) (m : TrapMode) : State := { s with cfg := { s.cfg with trapMode := m } }

/-- The two states differ in nothing but what register `r` reads. -/
def SameButRegister (r : Reg) (s t : State) : Prop :=
  (∀ q, q ≠ r → t.x q = s.x q) ∧ t.pc = s.pc ∧ t.mem = s.mem ∧ t.fetchDirty = s.fetchDirty ∧ SameControl s t ∧
    SameEnvironment s t

/-- The next states `t` and `t'` that instruction `i` gives in `s` and `s'`, two states that differ in nothing but what
register `r` reads: they differ in nothing else either; if `r` is the destination, it reads the same in both, unless the
instruction raised and the trap was entered (R246), with no register written; if not, it reads in each as before. -/
def SameEffect (i : Instr) (r : Reg) (s s' t t' : State) : Prop :=
  SameButRegister r t t' ∧
    (i.rd? = some r → t'.x r = t.x r ∨ (s.cfg.trapMode = .vector ∧ TrapEntered s t ∧ TrapEntered s' t')) ∧
    (i.rd? ≠ some r → t.x r = s.x r ∧ t'.x r = s'.x r)

/-- The two outcomes are of one kind: the same stop, or next states related by `R`. -/
def SameOutcome (R : State → State → Prop) : StepResult → StepResult → Prop
  | .next s, .next t => R s t
  | .fault r, .fault q => r = q
  | .refused r, .refused q => r = q
  | _, _ => False

/-! ### The end of a run (R285) -/

/-- The step ends the run in `Trap(e, pc, info)` ("trap as end"); the end state is `s`. -/
def EndsInTrap (s : State) (e : Exception) (pc : Word) : Prop := step s = .fault (.trap e pc)

/-- The state is a fixed point of the step function ("spin as end"). -/
def SpinEnd (s : State) : Prop := step s = .next s

/-- `k` steps from `s` complete, with no fault and no refusal: what counts as a safe run. -/
def RunsFor (k : Nat) (s : State) : Prop := ∃ t, Sys2Proof.core.run k s = .next t

end Sys2Proof.Machine
end

