-- ==== Sys2Proof/Certificates/Slice0/Obligations.lean ====
section
/-! DEFINITION. The statements for the provers. Each docstring names the rule of spec/ the statement formalises, or says
that it is the model's choice and names the log entry. -/

open Sys2Proof Sys2Proof.Machine

/-! ### Encoding -/

/-- Decode and encode agree: every well-formed instruction, with every operand at every value its encoding admits, is
what its own word decodes to (`30_encoding.md` R82 to R97). No bit of an operand is dropped. -/
def Obligations.DecodeOfEncode : Prop :=
  ∀ i : Instr, i.wf = true → decode (encode i) = .ok i

/-- Encode and decode agree: a word that decodes is the word of the instruction it decodes to, which is well-formed
(R82 to R97). No bit of a word is dropped; the bits of `fence` and `fence.i` that name nothing are operands (log 14). -/
def Obligations.EncodeOfDecode : Prop :=
  ∀ (w : Word) (i : Instr), decode w = .ok i → i.wf = true ∧ encode i = w

/-- R97: a word is an instruction exactly when it passes the mask test of that instruction's row, and no word passes the
test of two rows. -/
def Obligations.WordIsInstructionExactlyWhenItsRowMatches : Prop :=
  (∀ (w : Word) (j : Instr), w &&& j.row.mask = j.row.pattern ↔ ∃ i, decode w = .ok i ∧ i.row = j.row) ∧
  (∀ (w : Word) (j k : Instr), w &&& j.row.mask = j.row.pattern → w &&& k.row.mask = k.row.pattern → j.row = k.row)

/-- The five immediates, bit by bit as R90 to R94 build them, and their ranges. -/
def Obligations.ImmediatesAreBuiltFromTheirBits : Prop :=
  ∀ w : Word,
    sext (immI w) = (w.extractLsb' 31 1).replicate 20 ++ w.extractLsb' 20 12 ∧
    sext (immS w) = (w.extractLsb' 31 1).replicate 20 ++ w.extractLsb' 25 7 ++ w.extractLsb' 7 5 ∧
    sext (immB w) = (w.extractLsb' 31 1).replicate 20 ++ w.extractLsb' 7 1 ++ w.extractLsb' 25 6 ++
      w.extractLsb' 8 4 ++ 0#1 ∧
    upper (immU w) = w.extractLsb' 12 20 ++ 0#12 ∧
    sext (immJ w) = (w.extractLsb' 31 1).replicate 12 ++ w.extractLsb' 12 8 ++ w.extractLsb' 20 1 ++
      w.extractLsb' 25 6 ++ w.extractLsb' 21 4 ++ 0#1 ∧
    (-2048 ≤ signed (sext (immI w)) ∧ signed (sext (immI w)) ≤ 2047) ∧
    (-2048 ≤ signed (sext (immS w)) ∧ signed (sext (immS w)) ≤ 2047) ∧
    (-4096 ≤ signed (sext (immB w)) ∧ signed (sext (immB w)) ≤ 4094) ∧
    (-1048576 ≤ signed (sext (immJ w)) ∧ signed (sext (immJ w)) ≤ 1048574)

/-- Ten words of the spec's examples decode to the instruction they stand for, at least one of each format: those of R121,
R141, R149, R226, R150, R167 (`add`, `addi`, `srai`, `sb`, `lui`, `jal`), of `95_test_vectors.md` section 2 (`mret`, `div`,
`fence`) and of its section 3, program P1 (`bne`). -/
def Obligations.SampleWordsDecode : Prop :=
  decode 0x002081b3 = .ok (.add 3 1 2) ∧ decode 0xfff30293 = .ok (.addi 5 6 0xfff) ∧
  decode 0x40435293 = .ok (.srai 5 6 4) ∧ decode 0x005301a3 = .ok (.sb 5 6 3) ∧
  decode 0xfe029ce3 = .ok (.bne 5 0 0x1ff8) ∧ decode 0x123452b7 = .ok (.lui 5 0x12345) ∧
  decode 0xffdff06f = .ok (.jal 0 0x1ffffc) ∧ decode 0x30200073 = .ok .mret ∧
  decode 0x02c5c533 = .ok (.div 10 11 12) ∧ decode 0x0ff0000f = .ok (.fence 0x1fe0 0)

/-- R98: the fetch of a word that matches none of the 49 rows raises `IllegalInstruction` with that word, and has no
other effect (the spec's own decision D4). -/
def Obligations.UndefinedEncodingRaisesIllegalInstruction : Prop :=
  ∀ (s : State) (w : Word), NoInterrupt s → Fetches s w → (∀ j : Instr, w &&& j.row.mask ≠ j.row.pattern) →
    Raises s.tick (.illegalInstruction w) (step s)

/-! ### The step -/

/-- A step runs the decoded instruction (`70_reset_and_hazards.md` R283): it is `exec` of the instruction that the four
bytes at `pc` decode to, in the state that differs only in that one sample of the interrupt input was taken (log 8). The sequential step is the spec's own
decision D23. -/
def Obligations.StepRunsTheDecodedInstruction : Prop :=
  ∀ (s : State) (w : Word) (i : Instr), NoInterrupt s → Fetches s w → decode w = .ok i →
    step s = exec i s.tick ∧ s.tick = { s with irq := s.irq.tail }

/-- R56: the fetch, in its order. (1) An interrupt is taken instead. (2) A misaligned `pc` raises. (3) A fetch that is not
admitted raises. (4) A stale byte ends the run in `StaleFetch`. (5) Otherwise the word is the little-endian one, and the
step executes it. The order and the byte order are the spec's own decisions D24, D1, D3, D10, D13 (log 11). -/
def Obligations.FetchChecksInOrder : Prop :=
  ∀ s : State,
    (s.irqPending = true → s.mie = true → Raises s.tick .interrupt (step s)) ∧
    (NoInterrupt s →
      (s.pc.toNat % 4 ≠ 0 → Raises s.tick (.instructionAddressMisaligned s.pc) (step s)) ∧
      (s.pc.toNat % 4 = 0 → ¬ Admitted s .fetch s.pc 4 → Raises s.tick (.instructionAccessFault s.pc) (step s)) ∧
      (s.pc.toNat % 4 = 0 → Admitted s .fetch s.pc 4 → (∃ j, j < 4 ∧ (s.pc + BitVec.ofNat 32 j).toNat ∈ s.fetchDirty) →
        step s = .fault (.trap (.staleFetch s.pc) s.pc)) ∧
      (∀ b0 b1 b2 b3 : Byte, Fetches s (b3 ++ b2 ++ b1 ++ b0) → ∀ i, decode (b3 ++ b2 ++ b1 ++ b0) = .ok i →
        s.byte? s.pc = some b0 ∧ s.byte? (s.pc + 1) = some b1 ∧ s.byte? (s.pc + 2) = some b2 ∧
          s.byte? (s.pc + 3) = some b3 ∧ step s = exec i s.tick))

/-- The model's choice (logs 7, 9): a fetch that R56 lets through is refused when one of its bytes is a device's (R59) or
is in no image and was never stored to (U5). -/
def Obligations.FetchOfDeviceOrUnloadedBytesIsRefused : Prop :=
  ∀ s : State, NoInterrupt s → s.pc.toNat % 4 = 0 → Admitted s .fetch s.pc 4 →
    (∀ j, j < 4 → (s.pc + BitVec.ofNat 32 j).toNat ∉ s.fetchDirty) →
    (¬ Ordinary s s.pc 4 → step s = .refused (.deviceAccess s.pc)) ∧
    (Ordinary s s.pc 4 → (∃ j, j < 4 ∧ s.byte? (s.pc + BitVec.ofNat 32 j) = none) →
      step s = .refused (.fetchUnloaded s.pc))

/-- R243: a request with `mie = 1` is taken before the fetch; with `mie = 0` it is ignored; and from `mie = 0`, only a
step that runs `mret` gives `mie = 1`, so a program that never executes `mret` is never interrupted. That
`mie` enables is the spec's general knowledge (D14, log 11). -/
def Obligations.InterruptIsTakenOnlyWhenEnabled : Prop :=
  (∀ s : State, s.irqPending = true → s.mie = true → Raises s.tick .interrupt (step s)) ∧
  (∀ s : State, s.mie = false → step s = step { s with irq := false :: s.irq.tail }) ∧
  (∀ s t : State, s.mie = false → step s = .next t → t.mie = true → s.nextInstr = .ok .mret) ∧
  State.reset.mie = false

/-! ### Invariants -/

/-- Every step keeps the invariant of `State.Inv`, from every state that has it (R21, R27, R33, R34, R246; the
alignment of `pc` and `fetch_dirty` are the spec's own decisions D3 and D13). -/
def Obligations.StepKeepsTheInvariant : Prop :=
  ∀ s t : State, s.Inv → step s = .next t → t.Inv

/-- The reset state has the invariant. Its parameters and registers are the model's choice (logs 1 to 5). -/
def Obligations.ResetHasTheInvariant : Prop := State.reset.Inv

/-- R281: the launch state, for every value of the parameters, of the registers the spec leaves unspecified and of the
image; and that it has the invariant when `RESET_PC` and `TRAP_VECTOR` are as R36 and R246 ask. The values are the
spec's own decision D11, `mie = 0` its general knowledge (log 11). -/
def Obligations.LaunchStateIsAsTheTableSays : Prop :=
  ∀ (cfg : Config) (regs : Vector Word 32) (mepc : Word) (mpie : Bool) (image : List Host.Cell) (irq : List Bool) (s : State),
    s = State.launch cfg regs mepc mpie image irq →
    s.pc = cfg.resetPc ∧ s.x 0 = 0 ∧ (∀ r : Reg, r ≠ 0 → s.x r = regs[r]) ∧ s.mepc = mepc ∧ s.mie = false ∧
    s.mpie = mpie ∧ s.fetchDirty = [] ∧
    ((image.map Prod.fst).Nodup → (∀ c ∈ image, c.1 < 4294967296) →
      (∀ c ∈ image, s.byte? (BitVec.ofNat 32 c.1) = some c.2) ∧
      ∀ a : Word, (∀ c ∈ image, c.1 ≠ a.toNat) → s.byte? a = none) ∧
    (cfg.resetPc.toNat % 4 = 0 → trapVectorAligned cfg → s.Inv)

/-- The parameters are fixed for a run, and a step takes one sample of the interrupt input (the model's choice of where
they stand, logs 6 and 8). -/
def Obligations.StepKeepsTheParameters : Prop :=
  ∀ s t : State, step s = .next t → t.cfg = s.cfg ∧ t.irq = s.irq.tail

/-! ### Frames over all instructions -/

/-- R23 (which the spec derives) and R21: an instruction changes no general register but the one its `rd` field names, and `x0` not even then. -/
def Obligations.GeneralRegistersChangeOnlyAtRd : Prop :=
  ∀ (i : Instr) (s t : State), exec i s = .next t → t.x 0 = 0 ∧ ∀ r : Reg, i.rd? ≠ some r → t.x r = s.x r

/-- R22: an instruction uses no implicit general register. The content of a register `r` that its source fields do not
name changes neither which outcome it has nor what a next state holds outside `r`. As the destination, `r` reads the same
in both next states, unless the instruction raised and the trap was entered; otherwise it keeps its content. -/
def Obligations.RegistersNotNamedDoNotMatter : Prop :=
  ∀ (i : Instr) (s : State) (r : Reg) (v : Word), r ∉ i.sources →
    SameOutcome (SameEffect i r s (s.setX r v)) (exec i s) (exec i (s.setX r v))

/-- R29 and R30: only `mret` and trap entry write `mepc`, `mie` and `mpie`, and under `TRAP_MODE = fault` no step writes
`mepc` (trap entry is the spec's own decision D5). -/
def Obligations.ControlRegistersChangeOnlyByMretAndTrapEntry : Prop :=
  (∀ (i : Instr) (s t : State), exec i s = .next t → i ≠ .mret → SameControl s t ∨ TrapEntered s t) ∧
  (∀ s t : State, s.cfg.trapMode = .fault → step s = .next t → t.mepc = s.mepc)

/-- Memory changes only where a store stores (R53, R57): every byte that is not one of the bytes the instruction stores to
reads as before, and an instruction that is no store changes no byte. -/
def Obligations.MemoryChangesOnlyAtTheStoredBytes : Prop :=
  ∀ (i : Instr) (s t : State), exec i s = .next t →
    (i.storesTo s = none → ∀ b : Word, t.byte? b = s.byte? b) ∧
    (∀ a n, i.storesTo s = some (a, n) → ∀ b : Word, (∀ k, k < n → b ≠ a + BitVec.ofNat 32 k) → t.byte? b = s.byte? b)

/-- R26: where each instruction that raises nothing leaves `pc`. (Under `TRAP_MODE = fault` a next state is one where
nothing was raised.) The spec derives R26. -/
def Obligations.EveryInstructionAdvancesPc : Prop :=
  ∀ (i : Instr) (s t : State), s.cfg.trapMode = .fault → exec i s = .next t → t.pc = nextPc s i

/-! ### Exceptions -/

/-- R247: every exception is precise. What `TRAP_MODE = fault` reports at `A` with the state as before the instruction is,
under `TRAP_MODE = vector`, the trap entry that saves `A` and changes nothing else; an instruction, or a step, that raises
nothing does the same in both modes. (`StaleFetch` ends the run in both.) Precision and both modes are the
spec's own decisions D5 and D8. -/
def Obligations.ExceptionsArePrecise : Prop :=
  (∀ (i : Instr) (s : State), s.cfg.trapMode = .fault →
    (∀ e p, exec i s = .fault (.trap e p) →
      p = s.pc ∧ ∃ t, exec i (s.inMode .vector) = .next t ∧ TrapEntered (s.inMode .vector) t) ∧
    (∀ t, exec i s = .next t → exec i (s.inMode .vector) = .next (t.inMode .vector))) ∧
  (∀ s : State, s.cfg.trapMode = .fault →
    (∀ e p, step s = .fault (.trap e p) → (∀ q, e ≠ .staleFetch q) →
      p = s.pc ∧ ∃ t, step (s.inMode .vector) = .next t ∧ TrapEntered (s.tick.inMode .vector) t) ∧
    (∀ p q, step s = .fault (.trap (.staleFetch q) p) → step (s.inMode .vector) = step s) ∧
    (∀ t, step s = .next t → step (s.inMode .vector) = .next (t.inMode .vector)))

/-- R241: which instruction can raise what (the causes are the spec's own decisions D2, D3, D10, D15). -/
def Obligations.OnlyTheListedExceptionsAreRaised : Prop :=
  ∀ (i : Instr) (s : State) (e : Exception) (p : Word), exec i s = .fault (.trap e p) → MayRaise s i e

/-- R246, R248: entry followed by `mret` restores `pc` and `mie`, sets `mpie`, and changes nothing else but `mepc`
(trap entry is the spec's own decision D5). -/
def Obligations.TrapEntryThenMretRestores : Prop :=
  ∀ (s t : State) (e : Exception), s.cfg.trapMode = .vector → s.pc.toNat % 4 = 0 → s.raise e = .next t →
    ∃ u, exec .mret t = .next u ∧ u.pc = s.pc ∧ u.mie = s.mie ∧ u.mpie = true ∧ u.mepc = s.pc ∧
      SameRegisters s u ∧ SameMemory s u ∧ SameEnvironment s u

/-! ### Register-register instructions -/

/-- R121, R122, with R120: sums and differences modulo 2^32, the same whether the operands are read as signed or not. -/
def Obligations.AddAndSubResults : Prop :=
  EncodedR 0x00000033 .add ∧ EncodedR 0x40000033 .sub ∧
  ∀ (s : State) (rd rs1 rs2 : Reg),
    RegisterResult s rd (trunc32 (unsigned (s.x rs1) + unsigned (s.x rs2))) (exec (.add rd rs1 rs2) s) ∧
    RegisterResult s rd (trunc32 (signed (s.x rs1) + signed (s.x rs2))) (exec (.add rd rs1 rs2) s) ∧
    RegisterResult s rd (trunc32 (unsigned (s.x rs1) - unsigned (s.x rs2))) (exec (.sub rd rs1 rs2) s) ∧
    RegisterResult s rd (trunc32 (signed (s.x rs1) - signed (s.x rs2))) (exec (.sub rd rs1 rs2) s)

/-- R123, R127, R128: shifts by the low five bits of `x[rs2]`: times 2^n modulo 2^32; floor of the unsigned value over 2^n;
floor of the signed value over 2^n. -/
def Obligations.RegisterShiftResults : Prop :=
  EncodedR 0x00001033 .sll ∧ EncodedR 0x00005033 .srl ∧ EncodedR 0x40005033 .sra ∧
  ∀ (s : State) (rd rs1 rs2 : Reg) (n : Nat), n = (s.x rs2).toNat % 32 →
    RegisterResult s rd (trunc32 (unsigned (s.x rs1) * 2 ^ n)) (exec (.sll rd rs1 rs2) s) ∧
    RegisterResult s rd (trunc32 (unsigned (s.x rs1) / 2 ^ n)) (exec (.srl rd rs1 rs2) s) ∧
    RegisterResult s rd (trunc32 (signed (s.x rs1) / 2 ^ n)) (exec (.sra rd rs1 rs2) s)

/-- R124, R125: set-less-than, on the signed and on the unsigned values. -/
def Obligations.RegisterCompareResults : Prop :=
  EncodedR 0x00002033 .slt ∧ EncodedR 0x00003033 .sltu ∧
  ∀ (s : State) (rd rs1 rs2 : Reg),
    RegisterResult s rd (if signed (s.x rs1) < signed (s.x rs2) then 1 else 0) (exec (.slt rd rs1 rs2) s) ∧
    RegisterResult s rd (if unsigned (s.x rs1) < unsigned (s.x rs2) then 1 else 0) (exec (.sltu rd rs1 rs2) s)

/-- R126, R129, R130: the bitwise operations, bit by bit. -/
def Obligations.RegisterBitwiseResults : Prop :=
  EncodedR 0x00004033 .xor ∧ EncodedR 0x00006033 .or ∧ EncodedR 0x00007033 .and ∧
  ∀ (s : State) (rd rs1 rs2 : Reg),
    (∃ v, RegisterResult s rd v (exec (.xor rd rs1 rs2) s) ∧
      ∀ k, k < 32 → v.getLsbD k = ((s.x rs1).getLsbD k != (s.x rs2).getLsbD k)) ∧
    (∃ v, RegisterResult s rd v (exec (.or rd rs1 rs2) s) ∧
      ∀ k, k < 32 → v.getLsbD k = ((s.x rs1).getLsbD k || (s.x rs2).getLsbD k)) ∧
    (∃ v, RegisterResult s rd v (exec (.and rd rs1 rs2) s) ∧
      ∀ k, k < 32 → v.getLsbD k = ((s.x rs1).getLsbD k && (s.x rs2).getLsbD k))

/-! ### Register-immediate instructions -/

/-- R141 to R143: `addi`, `slti`, `sltiu`, the immediate sign-extended, for `sltiu` before it is read as unsigned. -/
def Obligations.ImmediateArithmeticResults : Prop :=
  EncodedI 0x00000013 .addi ∧ EncodedI 0x00002013 .slti ∧ EncodedI 0x00003013 .sltiu ∧
  ∀ (s : State) (rd rs1 : Reg) (imm : BitVec 12),
    RegisterResult s rd (trunc32 (unsigned (s.x rs1) + imm.toInt)) (exec (.addi rd rs1 imm) s) ∧
    RegisterResult s rd (if signed (s.x rs1) < imm.toInt then 1 else 0) (exec (.slti rd rs1 imm) s) ∧
    RegisterResult s rd (if unsigned (s.x rs1) < imm.toInt % 4294967296 then 1 else 0) (exec (.sltiu rd rs1 imm) s)

/-- R144 to R146: the bitwise operations with the sign-extended immediate, whose bits 31 to 12 are copies of bit 11. -/
def Obligations.ImmediateBitwiseResults : Prop :=
  EncodedI 0x00004013 .xori ∧ EncodedI 0x00006013 .ori ∧ EncodedI 0x00007013 .andi ∧
  ∀ (s : State) (rd rs1 : Reg) (imm : BitVec 12),
    (∃ v, RegisterResult s rd v (exec (.xori rd rs1 imm) s) ∧
      ∀ k, k < 32 → v.getLsbD k = ((s.x rs1).getLsbD k != imm.getLsbD (min k 11))) ∧
    (∃ v, RegisterResult s rd v (exec (.ori rd rs1 imm) s) ∧
      ∀ k, k < 32 → v.getLsbD k = ((s.x rs1).getLsbD k || imm.getLsbD (min k 11))) ∧
    (∃ v, RegisterResult s rd v (exec (.andi rd rs1 imm) s) ∧
      ∀ k, k < 32 → v.getLsbD k = ((s.x rs1).getLsbD k && imm.getLsbD (min k 11)))

/-- R147 to R149: shifts by the 5-bit constant. -/
def Obligations.ImmediateShiftResults : Prop :=
  EncodedAs 0xfe00707f 0x00001013 (fun w => .slli (rdField w) (rs1Field w) (shamtField w)) ∧
  EncodedAs 0xfe00707f 0x00005013 (fun w => .srli (rdField w) (rs1Field w) (shamtField w)) ∧
  EncodedAs 0xfe00707f 0x40005013 (fun w => .srai (rdField w) (rs1Field w) (shamtField w)) ∧
  ∀ (s : State) (rd rs1 : Reg) (shamt : BitVec 5),
    RegisterResult s rd (trunc32 (unsigned (s.x rs1) * 2 ^ shamt.toNat)) (exec (.slli rd rs1 shamt) s) ∧
    RegisterResult s rd (trunc32 (unsigned (s.x rs1) / 2 ^ shamt.toNat)) (exec (.srli rd rs1 shamt) s) ∧
    RegisterResult s rd (trunc32 (signed (s.x rs1) / 2 ^ shamt.toNat)) (exec (.srai rd rs1 shamt) s)

/-- R150, R151: `lui` and `auipc`, the latter from the address of the `auipc` itself. -/
def Obligations.UpperImmediateResults : Prop :=
  EncodedAs 0x0000007f 0x00000037 (fun w => .lui (rdField w) (immU w)) ∧
  EncodedAs 0x0000007f 0x00000017 (fun w => .auipc (rdField w) (immU w)) ∧
  ∀ (s : State) (rd : Reg) (imm : BitVec 20),
    RegisterResult s rd (trunc32 (imm.toNat * 4096)) (exec (.lui rd imm) s) ∧
    RegisterResult s rd (trunc32 (unsigned s.pc + imm.toNat * 4096)) (exec (.auipc rd imm) s)

/-- R103: the expansion of `li` loads any 32-bit constant: `addi` from `x0` when the constant is small, otherwise `lui`
of the rounded high part followed by `addi` of the low part. The spec derives R103. -/
def Obligations.LoadImmediateExpansion : Prop :=
  ∀ (s : State) (rd : Reg) (v : Word), rd ≠ 0 →
    (-2048 ≤ signed v → signed v ≤ 2047 → RegisterResult s rd v (exec (.addi rd 0 (v.extractLsb' 0 12)) s)) ∧
    ∃ t u, exec (.lui rd ((v - sext (v.extractLsb' 0 12)).extractLsb' 12 20)) s = .next t ∧
      exec (.addi rd rd (v.extractLsb' 0 12)) t = .next u ∧ u.x rd = v ∧ (v.extractLsb' 0 12 = 0 → t.x rd = v) ∧
      (∀ r, r ≠ rd → u.x r = s.x r) ∧ SameMemory s u ∧ SameControl s u

/-- R102: the `hi`/`lo` pair of `la`: `auipc` of the rounded high part of the distance, then `addi` of its low part, gives
the symbol's address. The spec derives R102. -/
def Obligations.LoadAddressExpansion : Prop :=
  ∀ (s : State) (rd : Reg) (symbol delta : Word), rd ≠ 0 → delta = symbol - s.pc →
    ∃ t u, exec (.auipc rd ((delta + 0x800).extractLsb' 12 20)) s = .next t ∧
      exec (.addi rd rd (delta.extractLsb' 0 12)) t = .next u ∧ u.x rd = symbol ∧
      (∀ r, r ≠ rd → u.x r = s.x r) ∧ SameMemory s u ∧ SameControl s u

/-! ### Multiply and divide -/

/-- R181: the low half of the product; that it is the same for signed and unsigned operands is derived by the spec. -/
def Obligations.MulLowResult : Prop :=
  EncodedR 0x02000033 .mul ∧
  ∀ (s : State) (rd rs1 rs2 : Reg),
    RegisterResult s rd (trunc32 (unsigned (s.x rs1) * unsigned (s.x rs2))) (exec (.mul rd rs1 rs2) s) ∧
    RegisterResult s rd (trunc32 (signed (s.x rs1) * signed (s.x rs2))) (exec (.mul rd rs1 rs2) s)

/-- R182 to R184: the high halves, the floor of the exact product over 2^32. -/
def Obligations.MulHighResults : Prop :=
  EncodedR 0x02001033 .mulh ∧ EncodedR 0x02002033 .mulhsu ∧ EncodedR 0x02003033 .mulhu ∧
  ∀ (s : State) (rd rs1 rs2 : Reg),
    RegisterResult s rd (trunc32 (signed (s.x rs1) * signed (s.x rs2) / 4294967296)) (exec (.mulh rd rs1 rs2) s) ∧
    RegisterResult s rd (trunc32 (signed (s.x rs1) * unsigned (s.x rs2) / 4294967296)) (exec (.mulhsu rd rs1 rs2) s) ∧
    RegisterResult s rd (trunc32 (unsigned (s.x rs1) * unsigned (s.x rs2) / 4294967296)) (exec (.mulhu rd rs1 rs2) s)

/-- R185 to R188: the four quotients and remainders, with the corner results rule R189 fixes. The rounding and
the corners are the spec's general knowledge (D6, D7, log 11). -/
def Obligations.DivisionResults : Prop :=
  EncodedR 0x02004033 .div ∧ EncodedR 0x02005033 .divu ∧ EncodedR 0x02006033 .rem ∧ EncodedR 0x02007033 .remu ∧
  ∀ (s : State) (rd rs1 rs2 : Reg) (a b : Word), a = s.x rs1 → b = s.x rs2 →
    (b = 0 → RegisterResult s rd 0xFFFFFFFF (exec (.div rd rs1 rs2) s) ∧
      RegisterResult s rd 0xFFFFFFFF (exec (.divu rd rs1 rs2) s) ∧
      RegisterResult s rd a (exec (.rem rd rs1 rs2) s) ∧ RegisterResult s rd a (exec (.remu rd rs1 rs2) s)) ∧
    (a = 0x80000000 → b = 0xFFFFFFFF → RegisterResult s rd 0x80000000 (exec (.div rd rs1 rs2) s) ∧
      RegisterResult s rd 0 (exec (.rem rd rs1 rs2) s)) ∧
    (b ≠ 0 → ¬ (a = 0x80000000 ∧ b = 0xFFFFFFFF) →
      RegisterResult s rd (trunc32 ((signed a).tdiv (signed b))) (exec (.div rd rs1 rs2) s) ∧
      RegisterResult s rd (trunc32 (signed a - (signed a).tdiv (signed b) * signed b)) (exec (.rem rd rs1 rs2) s)) ∧
    (b ≠ 0 → RegisterResult s rd (trunc32 (unsigned a / unsigned b)) (exec (.divu rd rs1 rs2) s) ∧
      RegisterResult s rd (trunc32 (unsigned a - unsigned a / unsigned b * unsigned b)) (exec (.remu rd rs1 rs2) s))

/-- R189, laws 1 to 5: outside the corners `a = q × b + r` exactly, `|r| < |b|`, `r` is 0 or has the sign of the dividend,
and `|q × b| ≤ |a|` (the quotient is rounded toward zero); the corners; and the unsigned counterpart. Rule R189 is taken
from general knowledge by the spec (D6, D7, log 11). -/
def Obligations.DivisionLaws : Prop :=
  ∀ (s : State) (rd rs1 rs2 : Reg) (a b : Word), rd ≠ 0 → a = s.x rs1 → b = s.x rs2 →
    ∃ q r qu ru, exec (.div rd rs1 rs2) s = .next q ∧ exec (.rem rd rs1 rs2) s = .next r ∧
      exec (.divu rd rs1 rs2) s = .next qu ∧ exec (.remu rd rs1 rs2) s = .next ru ∧
      (b ≠ 0 → ¬ (a = 0x80000000 ∧ b = 0xFFFFFFFF) →
        signed a = signed (q.x rd) * signed b + signed (r.x rd) ∧
        (signed (r.x rd)).natAbs < (signed b).natAbs ∧
        (signed (r.x rd) = 0 ∨ (signed (r.x rd) < 0 ↔ signed a < 0)) ∧
        (signed (q.x rd) * signed b).natAbs ≤ (signed a).natAbs) ∧
      (b ≠ 0 → unsigned a = unsigned (qu.x rd) * unsigned b + unsigned (ru.x rd) ∧
        unsigned (ru.x rd) < unsigned b) ∧
      (b = 0 → q.x rd = 0xFFFFFFFF ∧ qu.x rd = 0xFFFFFFFF ∧ r.x rd = a ∧ ru.x rd = a) ∧
      (a = 0x80000000 → b = 0xFFFFFFFF → q.x rd = 0x80000000 ∧ r.x rd = 0)

/-! ### Control transfer -/

/-- R161, R162, with R160 and R170: `beq` and `bne`. The misaligned
target is the spec's own decision D3. -/
def Obligations.EqualityBranches : Prop :=
  EncodedB 0x00000063 .beq ∧ EncodedB 0x00001063 .bne ∧
  BranchRule .beq (fun a b => a = b) ∧ BranchRule .bne (fun a b => a ≠ b)

/-- R163, R164, with R160 and R170: `blt` and `bge`, on the signed values. The misaligned
target is the spec's own decision D3. -/
def Obligations.SignedBranches : Prop :=
  EncodedB 0x00004063 .blt ∧ EncodedB 0x00005063 .bge ∧
  BranchRule .blt (fun a b => signed a < signed b) ∧ BranchRule .bge (fun a b => signed a ≥ signed b)

/-- R165, R166, with R160 and R170: `bltu` and `bgeu`, on the unsigned values. The misaligned
target is the spec's own decision D3. -/
def Obligations.UnsignedBranches : Prop :=
  EncodedB 0x00006063 .bltu ∧ EncodedB 0x00007063 .bgeu ∧
  BranchRule .bltu (fun a b => unsigned a < unsigned b) ∧ BranchRule .bgeu (fun a b => unsigned a ≥ unsigned b)

/-- R167: `jal` links to `pc + 4` and jumps to `pc` plus the distance; a misaligned target raises and writes nothing
(the spec's own decision D3). -/
def Obligations.JumpAndLink : Prop :=
  EncodedAs 0x0000007f 0x0000006f (fun w => .jal (rdField w) (immJ w)) ∧
  ∀ (s : State) (rd : Reg) (dist : BitVec 21) (target : Word), target = trunc32 (unsigned s.pc + dist.toInt) →
    (target.toNat % 4 = 0 →
      ∃ t, exec (.jal rd dist) s = .next t ∧ RegisterUpdate s rd (trunc32 (unsigned s.pc + 4)) target t) ∧
    (target.toNat % 4 ≠ 0 → Raises s (.instructionAddressMisaligned target) (exec (.jal rd dist) s))

/-- R168: `jalr` jumps to the sum of the old `x[rs1]` and the immediate with bit 0 cleared, and links to `pc + 4`; a target
with bit 1 set raises and writes nothing (the spec's own decision D3). -/
def Obligations.IndirectJumpAndLink : Prop :=
  EncodedI 0x00000067 .jalr ∧
  ∀ (s : State) (rd rs1 : Reg) (imm : BitVec 12) (sum target : Word), sum = trunc32 (unsigned (s.x rs1) + imm.toInt) →
    target = trunc32 (unsigned sum / 2 * 2) →
    (target.toNat % 4 = 0 →
      ∃ t, exec (.jalr rd rs1 imm) s = .next t ∧ RegisterUpdate s rd (trunc32 (unsigned s.pc + 4)) target t) ∧
    (target.toNat % 4 ≠ 0 → Raises s (.instructionAddressMisaligned target) (exec (.jalr rd rs1 imm) s))

/-! ### System instructions -/

/-- R201: `mret` jumps to `mepc`, `mie` takes the old `mpie`, `mpie` becomes 1, and nothing else changes; a misaligned
`mepc` raises and changes neither `pc` nor `mstatus`. Only the word 0x30200073 is `mret`. The misaligned case is the
spec's own decision D3. -/
def Obligations.MretReturnsFromTheTrap : Prop :=
  (∀ w : Word, decode w = .ok .mret ↔ w = 0x30200073) ∧
  ∀ s : State,
    (s.mepc.toNat % 4 = 0 → ∃ t, exec .mret s = .next t ∧ t.pc = s.mepc ∧ t.mie = s.mpie ∧ t.mpie = true ∧
      t.mepc = s.mepc ∧ SameRegisters s t ∧ SameMemory s t ∧ SameEnvironment s t) ∧
    (s.mepc.toNat % 4 ≠ 0 → Raises s (.instructionAddressMisaligned s.mepc) (exec .mret s))

/-- R202, with R245 and R246: `ecall` ends the run in `Trap(EnvironmentCall, pc)` under `TRAP_MODE = fault`, and under
`vector` enters the trap with its own address saved; it is not gated by `mie`. Only the word 0x00000073 is `ecall`.
What raising does is the spec's own decision D5. -/
def Obligations.EcallRaisesEnvironmentCall : Prop :=
  (∀ w : Word, decode w = .ok .ecall ↔ w = 0x00000073) ∧
  ∀ s : State,
    (s.cfg.trapMode = .fault → exec .ecall s = .fault (.trap .environmentCall s.pc)) ∧
    (s.cfg.trapMode = .vector → ∃ t, exec .ecall s = .next t ∧ TrapEntered s t)

/-- R203: every word that matches the row is a `fence`, which changes nothing but `pc` (the spec's own
decisions D12, D17). -/
def Obligations.FenceChangesNothing : Prop :=
  (∀ w : Word, w &&& 0x0000707f = 0x0000000f → ∃ high low, decode w = .ok (.fence high low)) ∧
  ∀ (s : State) (high : BitVec 17) (low : BitVec 5), JumpResult s (s.pc + 4) (exec (.fence high low) s)

/-- R204: every word that matches the row is a `fence.i`, which empties `fetch_dirty` and changes nothing else but `pc`
(the spec's own decisions D13, D17). -/
def Obligations.FenceIEmptiesFetchDirty : Prop :=
  (∀ w : Word, w &&& 0xfe00707f = 0x0000100f → ∃ mid low, decode w = .ok (.fenceI mid low)) ∧
  ∀ (s : State) (mid : BitVec 10) (low : BitVec 5), ∃ t, exec (.fenceI mid low) s = .next t ∧ t.fetchDirty = [] ∧
    t.pc = s.pc + 4 ∧ (∀ a, t.byte? a = s.byte? a) ∧ SameRegisters s t ∧ SameControl s t ∧ SameEnvironment s t

/-! ### Loads and stores -/

/-- R221, R224: `lb` and `lbu`. The byte is the one in memory, or the free value of log 7 where nothing was stored. That
an access outside `MEM_MAP` raises is the spec's own decision D10. -/
def Obligations.ByteLoads : Prop :=
  EncodedI 0x00000003 .lb ∧ EncodedI 0x00004003 .lbu ∧
  LoadRule .lb 1 (fun s ea => trunc32 (s.byte ea).toInt) ∧
  LoadRule .lbu 1 (fun s ea => trunc32 (s.byte ea).toNat)

/-- R222, R225: `lh` and `lhu`. The byte order, what a misaligned access does and what one outside `MEM_MAP` does are the
spec's own decisions D1, D2, D10 (log 11); a byte nothing was stored to is the free value of log 7. -/
def Obligations.HalfWordLoads : Prop :=
  EncodedI 0x00001003 .lh ∧ EncodedI 0x00005003 .lhu ∧
  LoadRule .lh 2 (fun s ea => trunc32 (s.byte (ea + 1) ++ s.byte ea).toInt) ∧ LoadMisalignedRule .lh 2 ∧
  LoadRule .lhu 2 (fun s ea => trunc32 (s.byte (ea + 1) ++ s.byte ea).toNat) ∧ LoadMisalignedRule .lhu 2

/-- R223: `lw`. The byte order, what a misaligned access does and what one outside `MEM_MAP` does are the spec's own
decisions D1, D2, D10 (log 11); a byte nothing was stored to is the free value of log 7. -/
def Obligations.WordLoad : Prop :=
  EncodedI 0x00002003 .lw ∧
  LoadRule .lw 4 (fun s ea => s.byte (ea + 3) ++ s.byte (ea + 2) ++ s.byte (ea + 1) ++ s.byte ea) ∧
  LoadMisalignedRule .lw 4

/-- R226: `sb`. `fetch_dirty` and the access outside `MEM_MAP` are the spec's own decisions D13, D10. -/
def Obligations.ByteStore : Prop := EncodedS 0x00000023 .sb ∧ StoreRule .sb 1

/-- R227: `sh`. The byte order, the misaligned access, `fetch_dirty` and the access outside `MEM_MAP` are the spec's own
decisions D1, D2, D13, D10 (log 11). -/
def Obligations.HalfWordStore : Prop := EncodedS 0x00001023 .sh ∧ StoreRule .sh 2 ∧ StoreMisalignedRule .sh 2

/-- R228: `sw`. The byte order, the misaligned access, `fetch_dirty` and the access outside `MEM_MAP` are the spec's own
decisions D1, D2, D13, D10 (log 11). -/
def Obligations.WordStore : Prop := EncodedS 0x00002023 .sw ∧ StoreRule .sw 4 ∧ StoreMisalignedRule .sw 4

/-- The model's choice between the two of R59 (log 9): an aligned, admitted load or store that touches a byte of a device is
refused. -/
def Obligations.DeviceAccessIsRefused : Prop :=
  ∀ (s : State) (r rs1 : Reg) (imm : BitVec 12) (ea : Word), ea = s.effAddr rs1 imm →
    (Admitted s .read ea 1 → ¬ Ordinary s ea 1 →
      exec (.lb r rs1 imm) s = .refused (.deviceAccess ea) ∧ exec (.lbu r rs1 imm) s = .refused (.deviceAccess ea)) ∧
    (ea.toNat % 2 = 0 → Admitted s .read ea 2 → ¬ Ordinary s ea 2 →
      exec (.lh r rs1 imm) s = .refused (.deviceAccess ea) ∧ exec (.lhu r rs1 imm) s = .refused (.deviceAccess ea)) ∧
    (ea.toNat % 4 = 0 → Admitted s .read ea 4 → ¬ Ordinary s ea 4 →
      exec (.lw r rs1 imm) s = .refused (.deviceAccess ea)) ∧
    (Admitted s .write ea 1 → ¬ Ordinary s ea 1 → exec (.sb r rs1 imm) s = .refused (.deviceAccess ea)) ∧
    (ea.toNat % 2 = 0 → Admitted s .write ea 2 → ¬ Ordinary s ea 2 →
      exec (.sh r rs1 imm) s = .refused (.deviceAccess ea)) ∧
    (ea.toNat % 4 = 0 → Admitted s .write ea 4 → ¬ Ordinary s ea 4 →
      exec (.sw r rs1 imm) s = .refused (.deviceAccess ea))

/-- R51: a mixed-width access sees the little-endian bytes: after an `sw` at `a`, `lbu` at `a + k` reads byte k of the
stored register, `lhu` at `a` and `a + 2` its low and high half, and `lw` at `a` the whole. The byte order is the spec's general knowledge
(D1, log 11). -/
def Obligations.LoadsAfterAWordStoreSeeItsBytes : Prop :=
  ∀ (s t : State) (rs2 rs1 rd : Reg) (imm : BitVec 12) (a v : Word), a = s.effAddr rs1 imm → v = s.x rs2 →
    s.cfg.trapMode = .fault → exec (.sw rs2 rs1 imm) s = .next t → rd ≠ 0 → Admitted s .read a 4 →
    (∀ (q : Reg) (j : BitVec 12) (k : Nat), k < 4 → t.effAddr q j = a + BitVec.ofNat 32 k →
      ∃ u, exec (.lbu rd q j) t = .next u ∧ u.x rd = trunc32 (v.extractLsb' (8 * k) 8).toNat) ∧
    (∀ (q : Reg) (j : BitVec 12), t.effAddr q j = a →
      (∃ u, exec (.lhu rd q j) t = .next u ∧ u.x rd = trunc32 (v.extractLsb' 0 16).toNat) ∧
      (∃ u, exec (.lw rd q j) t = .next u ∧ u.x rd = v)) ∧
    (∀ (q : Reg) (j : BitVec 12), t.effAddr q j = a + 2 →
      ∃ u, exec (.lhu rd q j) t = .next u ∧ u.x rd = trunc32 (v.extractLsb' 16 16).toNat)

/-- R64: self-modifying code. After an `sw` at the word that is later fetched, the fetch ends the run in `StaleFetch`;
after a `fence.i` in between, the fetch reads the stored word and the step runs it (the spec's own decision
D13). -/
def Obligations.StoreToCodeNeedsFenceI : Prop :=
  ∀ (s t u f v : State) (rs2 rs1 : Reg) (imm : BitVec 12) (mid : BitVec 10) (low : BitVec 5) (a w : Word),
    a = s.effAddr rs1 imm → w = s.x rs2 → s.cfg.trapMode = .fault → exec (.sw rs2 rs1 imm) s = .next t →
    Admitted s .fetch a 4 → NoInterrupt s → u = { t with pc := a } → exec (.fenceI mid low) t = .next f →
    v = { f with pc := a } →
    step u = .fault (.trap (.staleFetch a) a) ∧ Fetches v w ∧ ∀ i, decode w = .ok i → step v = exec i v.tick

/-! ### The end of a run, and the host's placement -/

/-- R285: the two conventions. Under `TRAP_MODE = fault` an `ecall` ends the run at its own address; `jal x0, 0` is a fixed
point of the step function when the interrupt input is never pending. Both are the spec's own decision D18. -/
def Obligations.RunsEndByTrapOrBySpin : Prop :=
  (∀ s : State, NoInterrupt s → Fetches s 0x00000073 → s.cfg.trapMode = .fault → EndsInTrap s .environmentCall s.pc) ∧
  (∀ s : State, Fetches s 0x0000006f → s.irq = [] → SpinEnd s)

/-- The model's choice (log 15): `withFetchWord` places a word where the very next step fetches it, from every state. -/
def Obligations.WithFetchWordIsRunNext : Prop :=
  ∀ (s : State) (w : Nat) (i : Instr), decode (BitVec.ofNat 32 w) = .ok i →
    step (s.withFetchWord 32 w) = exec i (s.withFetchWord 32 w).tick
end

