-- ==== Sys2Proof/Laws/Decode.lean ====
section
/-! SUPPORT. Fields of words: what each field of an encoded word is, format by format, and what the masks of the opcode
table test (`30_encoding.md` R81 to R97). -/

namespace Sys2Proof

/-! ### Bit fields as numbers -/

theorem toNat_append_mul {v w : Nat} (x : BitVec v) (y : BitVec w) : (x ++ y).toNat = x.toNat * 2 ^ w + y.toNat := by
  rw [BitVec.toNat_append, ← Nat.shiftLeft_eq, Nat.shiftLeft_add_eq_or_of_lt y.isLt]

theorem toNat_extract_div {v : Nat} (x : BitVec v) (s n : Nat) : (x.extractLsb' s n).toNat = x.toNat / 2 ^ s % 2 ^ n := by
  rw [BitVec.extractLsb'_toNat, Nat.shiftRight_eq_div_pow]

@[simp] theorem regOfBits_bitsOfReg (r : Reg) : regOfBits (bitsOfReg r) = r := by revert r; decide

@[simp] theorem bitsOfReg_regOfBits (b : BitVec 5) : bitsOfReg (regOfBits b) = b := by revert b; decide

/-! ### The encoded words as sums of their fields -/

section
variable (f7 op : BitVec 7) (sh : BitVec 5) (rs1 rs2 rd : Reg) (f3 : BitVec 3) (imm : BitVec 12) (u : BitVec 20)
  (d : BitVec 13) (j : BitVec 21)

theorem encodeR_toNat : (encodeR f7 sh rs1 f3 rd op).toNat =
    f7.toNat * 33554432 + sh.toNat * 1048576 + (bitsOfReg rs1).toNat * 32768 + f3.toNat * 4096 +
      (bitsOfReg rd).toNat * 128 + op.toNat := by
  unfold encodeR; simp only [toNat_append_mul]; omega

theorem encodeI_toNat : (encodeI imm rs1 f3 rd op).toNat =
    imm.toNat * 1048576 + (bitsOfReg rs1).toNat * 32768 + f3.toNat * 4096 + (bitsOfReg rd).toNat * 128 + op.toNat := by
  unfold encodeI; simp only [toNat_append_mul]; omega

theorem encodeS_toNat : (encodeS imm rs2 rs1 f3).toNat =
    (imm.extractLsb' 5 7).toNat * 33554432 + (bitsOfReg rs2).toNat * 1048576 + (bitsOfReg rs1).toNat * 32768 +
      f3.toNat * 4096 + (imm.extractLsb' 0 5).toNat * 128 + 35 := by
  unfold encodeS; simp only [toNat_append_mul]
  generalize imm.extractLsb' 5 7 = p, imm.extractLsb' 0 5 = q
  have : (0b0100011#7).toNat = 35 := rfl
  omega

theorem encodeB_toNat : (encodeB d rs2 rs1 f3).toNat =
    (d.extractLsb' 12 1).toNat * 2147483648 + (d.extractLsb' 5 6).toNat * 33554432 + (bitsOfReg rs2).toNat * 1048576 +
      (bitsOfReg rs1).toNat * 32768 + f3.toNat * 4096 + (d.extractLsb' 1 4).toNat * 256 +
      (d.extractLsb' 11 1).toNat * 128 + 99 := by
  unfold encodeB; simp only [toNat_append_mul]
  generalize d.extractLsb' 12 1 = p, d.extractLsb' 5 6 = q, d.extractLsb' 1 4 = r, d.extractLsb' 11 1 = t
  have : (0b1100011#7).toNat = 99 := rfl
  omega

theorem encodeU_toNat : (encodeU u rd op).toNat = u.toNat * 4096 + (bitsOfReg rd).toNat * 128 + op.toNat := by
  unfold encodeU; simp only [toNat_append_mul]; omega

theorem encodeJ_toNat : (encodeJ j rd).toNat =
    (j.extractLsb' 20 1).toNat * 2147483648 + (j.extractLsb' 1 10).toNat * 2097152 + (j.extractLsb' 11 1).toNat * 1048576 +
      (j.extractLsb' 12 8).toNat * 4096 + (bitsOfReg rd).toNat * 128 + 111 := by
  unfold encodeJ; simp only [toNat_append_mul]
  generalize j.extractLsb' 20 1 = p, j.extractLsb' 1 10 = q, j.extractLsb' 11 1 = r, j.extractLsb' 12 8 = t
  have : (0b1101111#7).toNat = 111 := rfl
  omega

/-! ### The fields of an encoded word -/

/-- A field is the number `w / 2^s % 2^n`. -/
theorem extract_eq_of_toNat {n : Nat} (w : Word) (s : Nat) (x : BitVec n) (h : w.toNat / 2 ^ s % 2 ^ n = x.toNat) :
    w.extractLsb' s n = x :=
  BitVec.eq_of_toNat_eq ((toNat_extract_div w s n).trans h)

theorem regField_eq (w : Word) (s : Nat) (r : Reg) (h : w.toNat / 2 ^ s % 32 = (bitsOfReg r).toNat) :
    regOfBits (w.extractLsb' s 5) = r := by
  rw [extract_eq_of_toNat w s (bitsOfReg r) h, regOfBits_bitsOfReg]

@[simp] theorem opcodeField_encodeR : opcodeField (encodeR f7 sh rs1 f3 rd op) = op :=
  extract_eq_of_toNat _ _ _ (by rw [encodeR_toNat]; omega)
@[simp] theorem funct3Field_encodeR : funct3Field (encodeR f7 sh rs1 f3 rd op) = f3 :=
  extract_eq_of_toNat _ _ _ (by rw [encodeR_toNat]; omega)
@[simp] theorem funct7Field_encodeR : funct7Field (encodeR f7 sh rs1 f3 rd op) = f7 :=
  extract_eq_of_toNat _ _ _ (by rw [encodeR_toNat]; omega)
@[simp] theorem rdField_encodeR : rdField (encodeR f7 sh rs1 f3 rd op) = rd :=
  regField_eq _ _ _ (by rw [encodeR_toNat]; omega)
@[simp] theorem rs1Field_encodeR : rs1Field (encodeR f7 sh rs1 f3 rd op) = rs1 :=
  regField_eq _ _ _ (by rw [encodeR_toNat]; omega)
@[simp] theorem shamtField_encodeR : shamtField (encodeR f7 sh rs1 f3 rd op) = sh :=
  extract_eq_of_toNat _ _ _ (by rw [encodeR_toNat]; omega)
@[simp] theorem rs2Field_encodeR : rs2Field (encodeR f7 sh rs1 f3 rd op) = regOfBits sh :=
  congrArg regOfBits (shamtField_encodeR f7 op sh rs1 rd f3)

@[simp] theorem opcodeField_encodeI : opcodeField (encodeI imm rs1 f3 rd op) = op :=
  extract_eq_of_toNat _ _ _ (by rw [encodeI_toNat]; omega)
@[simp] theorem funct3Field_encodeI : funct3Field (encodeI imm rs1 f3 rd op) = f3 :=
  extract_eq_of_toNat _ _ _ (by rw [encodeI_toNat]; omega)
@[simp] theorem rdField_encodeI : rdField (encodeI imm rs1 f3 rd op) = rd :=
  regField_eq _ _ _ (by rw [encodeI_toNat]; omega)
@[simp] theorem rs1Field_encodeI : rs1Field (encodeI imm rs1 f3 rd op) = rs1 :=
  regField_eq _ _ _ (by rw [encodeI_toNat]; omega)
@[simp] theorem immI_encodeI : immI (encodeI imm rs1 f3 rd op) = imm :=
  extract_eq_of_toNat _ _ _ (by rw [encodeI_toNat]; omega)

@[simp] theorem opcodeField_encodeS : opcodeField (encodeS imm rs2 rs1 f3) = 0b0100011#7 :=
  extract_eq_of_toNat _ _ _ (by rw [encodeS_toNat, show (0b0100011#7).toNat = 35 from rfl]; omega)
@[simp] theorem funct3Field_encodeS : funct3Field (encodeS imm rs2 rs1 f3) = f3 :=
  extract_eq_of_toNat _ _ _ (by
    rw [encodeS_toNat]; generalize imm.extractLsb' 5 7 = p, imm.extractLsb' 0 5 = q; omega)
@[simp] theorem rs1Field_encodeS : rs1Field (encodeS imm rs2 rs1 f3) = rs1 :=
  regField_eq _ _ _ (by
    rw [encodeS_toNat]; generalize imm.extractLsb' 5 7 = p, imm.extractLsb' 0 5 = q; omega)
@[simp] theorem rs2Field_encodeS : rs2Field (encodeS imm rs2 rs1 f3) = rs2 :=
  regField_eq _ _ _ (by
    rw [encodeS_toNat]; generalize imm.extractLsb' 5 7 = p, imm.extractLsb' 0 5 = q; omega)
@[simp] theorem immS_encodeS : immS (encodeS imm rs2 rs1 f3) = imm := by
  have hi : (encodeS imm rs2 rs1 f3).extractLsb' 25 7 = imm.extractLsb' 5 7 :=
    extract_eq_of_toNat _ _ _ (by
      rw [encodeS_toNat]; generalize imm.extractLsb' 5 7 = p, imm.extractLsb' 0 5 = q; omega)
  have lo : (encodeS imm rs2 rs1 f3).extractLsb' 7 5 = imm.extractLsb' 0 5 :=
    extract_eq_of_toNat _ _ _ (by
      rw [encodeS_toNat]; generalize imm.extractLsb' 5 7 = p, imm.extractLsb' 0 5 = q; omega)
  refine BitVec.eq_of_toNat_eq ?_
  unfold immS
  rw [hi, lo, toNat_append_mul, toNat_extract_div, toNat_extract_div]
  omega

@[simp] theorem opcodeField_encodeB : opcodeField (encodeB d rs2 rs1 f3) = 0b1100011#7 :=
  extract_eq_of_toNat _ _ _ (by
    rw [encodeB_toNat, show (0b1100011#7).toNat = 99 from rfl]
    generalize d.extractLsb' 12 1 = p, d.extractLsb' 5 6 = q, d.extractLsb' 1 4 = r, d.extractLsb' 11 1 = t
    omega)
@[simp] theorem funct3Field_encodeB : funct3Field (encodeB d rs2 rs1 f3) = f3 :=
  extract_eq_of_toNat _ _ _ (by
    rw [encodeB_toNat]
    generalize d.extractLsb' 12 1 = p, d.extractLsb' 5 6 = q, d.extractLsb' 1 4 = r, d.extractLsb' 11 1 = t
    omega)
@[simp] theorem rs1Field_encodeB : rs1Field (encodeB d rs2 rs1 f3) = rs1 :=
  regField_eq _ _ _ (by
    rw [encodeB_toNat]
    generalize d.extractLsb' 12 1 = p, d.extractLsb' 5 6 = q, d.extractLsb' 1 4 = r, d.extractLsb' 11 1 = t
    omega)
@[simp] theorem rs2Field_encodeB : rs2Field (encodeB d rs2 rs1 f3) = rs2 :=
  regField_eq _ _ _ (by
    rw [encodeB_toNat]
    generalize d.extractLsb' 12 1 = p, d.extractLsb' 5 6 = q, d.extractLsb' 1 4 = r, d.extractLsb' 11 1 = t
    omega)

/-- A distance with bit 0 equal to 0 is an even number. -/
theorem evenDistance_toNat {n : Nat} {x : BitVec n} (h : evenDistance x = true) : x.toNat % 2 = 0 := by
  have h' : x.getLsbD 0 = false := by simpa [evenDistance] using h
  rw [← BitVec.testBit_toNat, Nat.testBit_zero] at h'
  simpa using h'

theorem immB_encodeB (h : evenDistance d = true) : immB (encodeB d rs2 rs1 f3) = d := by
  have e := encodeB_toNat rs1 rs2 f3 d
  have h31 : (encodeB d rs2 rs1 f3).extractLsb' 31 1 = d.extractLsb' 12 1 := extract_eq_of_toNat _ _ _ (by
    rw [e]; generalize d.extractLsb' 12 1 = p, d.extractLsb' 5 6 = q, d.extractLsb' 1 4 = r, d.extractLsb' 11 1 = t
    omega)
  have h7 : (encodeB d rs2 rs1 f3).extractLsb' 7 1 = d.extractLsb' 11 1 := extract_eq_of_toNat _ _ _ (by
    rw [e]; generalize d.extractLsb' 12 1 = p, d.extractLsb' 5 6 = q, d.extractLsb' 1 4 = r, d.extractLsb' 11 1 = t
    omega)
  have h25 : (encodeB d rs2 rs1 f3).extractLsb' 25 6 = d.extractLsb' 5 6 := extract_eq_of_toNat _ _ _ (by
    rw [e]; generalize d.extractLsb' 12 1 = p, d.extractLsb' 5 6 = q, d.extractLsb' 1 4 = r, d.extractLsb' 11 1 = t
    omega)
  have h8 : (encodeB d rs2 rs1 f3).extractLsb' 8 4 = d.extractLsb' 1 4 := extract_eq_of_toNat _ _ _ (by
    rw [e]; generalize d.extractLsb' 12 1 = p, d.extractLsb' 5 6 = q, d.extractLsb' 1 4 = r, d.extractLsb' 11 1 = t
    omega)
  have := evenDistance_toNat h
  refine BitVec.eq_of_toNat_eq ?_
  unfold immB
  rw [h31, h7, h25, h8]
  simp only [toNat_append_mul, toNat_extract_div, show (0#1).toNat = 0 from rfl]
  omega

@[simp] theorem opcodeField_encodeU : opcodeField (encodeU u rd op) = op :=
  extract_eq_of_toNat _ _ _ (by rw [encodeU_toNat]; omega)
@[simp] theorem rdField_encodeU : rdField (encodeU u rd op) = rd :=
  regField_eq _ _ _ (by rw [encodeU_toNat]; omega)
@[simp] theorem immU_encodeU : immU (encodeU u rd op) = u :=
  extract_eq_of_toNat _ _ _ (by rw [encodeU_toNat]; omega)

@[simp] theorem opcodeField_encodeJ : opcodeField (encodeJ j rd) = 0b1101111#7 :=
  extract_eq_of_toNat _ _ _ (by
    rw [encodeJ_toNat, show (0b1101111#7).toNat = 111 from rfl]
    generalize j.extractLsb' 20 1 = p, j.extractLsb' 1 10 = q, j.extractLsb' 11 1 = r, j.extractLsb' 12 8 = t
    omega)
@[simp] theorem rdField_encodeJ : rdField (encodeJ j rd) = rd :=
  regField_eq _ _ _ (by
    rw [encodeJ_toNat]
    generalize j.extractLsb' 20 1 = p, j.extractLsb' 1 10 = q, j.extractLsb' 11 1 = r, j.extractLsb' 12 8 = t
    omega)

theorem immJ_encodeJ (h : evenDistance j = true) : immJ (encodeJ j rd) = j := by
  have e := encodeJ_toNat rd j
  have h31 : (encodeJ j rd).extractLsb' 31 1 = j.extractLsb' 20 1 := extract_eq_of_toNat _ _ _ (by
    rw [e]; generalize j.extractLsb' 20 1 = p, j.extractLsb' 1 10 = q, j.extractLsb' 11 1 = r, j.extractLsb' 12 8 = t
    omega)
  have h12 : (encodeJ j rd).extractLsb' 12 8 = j.extractLsb' 12 8 := extract_eq_of_toNat _ _ _ (by
    rw [e]; generalize j.extractLsb' 20 1 = p, j.extractLsb' 1 10 = q, j.extractLsb' 11 1 = r, j.extractLsb' 12 8 = t
    omega)
  have h20 : (encodeJ j rd).extractLsb' 20 1 = j.extractLsb' 11 1 := extract_eq_of_toNat _ _ _ (by
    rw [e]; generalize j.extractLsb' 20 1 = p, j.extractLsb' 1 10 = q, j.extractLsb' 11 1 = r, j.extractLsb' 12 8 = t
    omega)
  have h21 : (encodeJ j rd).extractLsb' 21 10 = j.extractLsb' 1 10 := extract_eq_of_toNat _ _ _ (by
    rw [e]; generalize j.extractLsb' 20 1 = p, j.extractLsb' 1 10 = q, j.extractLsb' 11 1 = r, j.extractLsb' 12 8 = t
    omega)
  have := evenDistance_toNat h
  refine BitVec.eq_of_toNat_eq ?_
  unfold immJ
  rw [h31, h12, h20, h21]
  simp only [toNat_append_mul, toNat_extract_div, show (0#1).toNat = 0 from rfl]
  omega

end

/-! ### What the masks test (R97) -/

/-- A word is its fields and the bits between them. -/
theorem word_split (w : Word) :
    funct7Field w ++ w.extractLsb' 15 10 ++ funct3Field w ++ w.extractLsb' 7 5 ++ opcodeField w = w := by
  refine BitVec.eq_of_toNat_eq ?_
  unfold funct7Field funct3Field opcodeField
  simp only [toNat_append_mul, toNat_extract_div]
  omega

/-- The parts of two equal concatenations are equal. -/
theorem append_inj_iff {v w : Nat} (a c : BitVec v) (b d : BitVec w) : a ++ b = c ++ d ↔ a = c ∧ b = d := by
  refine ⟨fun h => ?_, fun h => by rw [h.1, h.2]⟩
  constructor
  · have := congrArg (fun z => z.extractLsb' w v) h
    simpa [BitVec.extractLsb'_append_eq_of_le] using this
  · have := congrArg (fun z => z.extractLsb' 0 w) h
    simpa [BitVec.extractLsb'_append_eq_of_add_le] using this

theorem and_ones7 (x : BitVec 7) : x &&& 127#7 = x := BitVec.and_allOnes (x := x)

theorem and_ones3 (x : BitVec 3) : x &&& 7#3 = x := BitVec.and_allOnes (x := x)

/-- The mask of the rows that fix the opcode only. -/
theorem mask_opcode_iff (w : Word) (op : BitVec 7) :
    w &&& 0x0000007f = 0#7 ++ 0#10 ++ 0#3 ++ 0#5 ++ op ↔ opcodeField w = op := by
  have : w &&& 0x0000007f = (0#7 ++ 0#10 ++ 0#3 ++ 0#5 ++ opcodeField w : BitVec (7 + 10 + 3 + 5 + 7)) := by
    conv_lhs => rw [← word_split w]
    rw [show (0x0000007f : Word) = (0#7 ++ 0#10 ++ 0#3 ++ 0#5 ++ 127#7 : BitVec (7 + 10 + 3 + 5 + 7)) from by decide]
    erw [BitVec.and_append, BitVec.and_append, BitVec.and_append, BitVec.and_append]
    simp [and_ones7]
  rw [this]
  exact (append_inj_iff _ _ _ _).trans (by simp)

/-- The mask of the rows that fix the opcode and `funct3`. -/
theorem mask_funct3_iff (w : Word) (f3 : BitVec 3) (op : BitVec 7) :
    w &&& 0x0000707f = 0#7 ++ 0#10 ++ f3 ++ 0#5 ++ op ↔ opcodeField w = op ∧ funct3Field w = f3 := by
  have : w &&& 0x0000707f = (0#7 ++ 0#10 ++ funct3Field w ++ 0#5 ++ opcodeField w : BitVec (7 + 10 + 3 + 5 + 7)) := by
    conv_lhs => rw [← word_split w]
    rw [show (0x0000707f : Word) = (0#7 ++ 0#10 ++ 7#3 ++ 0#5 ++ 127#7 : BitVec (7 + 10 + 3 + 5 + 7)) from by decide]
    erw [BitVec.and_append, BitVec.and_append, BitVec.and_append, BitVec.and_append]
    simp [and_ones7, and_ones3]
  rw [this]
  refine (append_inj_iff _ _ _ _).trans ?_
  rw [append_inj_iff, append_inj_iff]
  simp [and_comm]

/-- The mask of the rows that fix the opcode, `funct3` and `funct7`. -/
theorem mask_funct7_iff (w : Word) (f7 : BitVec 7) (f3 : BitVec 3) (op : BitVec 7) :
    w &&& 0xfe00707f = f7 ++ 0#10 ++ f3 ++ 0#5 ++ op ↔ opcodeField w = op ∧ funct3Field w = f3 ∧ funct7Field w = f7 := by
  have : w &&& 0xfe00707f =
      (funct7Field w ++ 0#10 ++ funct3Field w ++ 0#5 ++ opcodeField w : BitVec (7 + 10 + 3 + 5 + 7)) := by
    conv_lhs => rw [← word_split w]
    rw [show (0xfe00707f : Word) = (127#7 ++ 0#10 ++ 7#3 ++ 0#5 ++ 127#7 : BitVec (7 + 10 + 3 + 5 + 7)) from by decide]
    erw [BitVec.and_append, BitVec.and_append, BitVec.and_append, BitVec.and_append]
    simp [and_ones7, and_ones3]
  rw [this]
  refine (append_inj_iff _ _ _ _).trans ?_
  rw [append_inj_iff, append_inj_iff, append_inj_iff]
  constructor
  · rintro ⟨⟨⟨⟨h7, -⟩, h3⟩, -⟩, ho⟩; exact ⟨ho, h3, h7⟩
  · rintro ⟨ho, h3, h7⟩; exact ⟨⟨⟨⟨h7, rfl⟩, h3⟩, rfl⟩, ho⟩

/-- A word with the row's opcode matches a row that fixes the opcode only. -/
theorem matches_of_opcode {w p : Word} (op : BitVec 7) (hp : p = (0#7 ++ 0#10 ++ 0#3 ++ 0#5 ++ op : BitVec (7 + 10 + 3 + 5 + 7)))
    (h : opcodeField w = op) : w &&& 0x0000007f = p := hp ▸ (mask_opcode_iff w op).2 h

/-- A word with the row's opcode and `funct3` matches a row that fixes these. -/
theorem matches_of_funct3 {w p : Word} (f3 : BitVec 3) (op : BitVec 7)
    (hp : p = (0#7 ++ 0#10 ++ f3 ++ 0#5 ++ op : BitVec (7 + 10 + 3 + 5 + 7)))
    (h : opcodeField w = op ∧ funct3Field w = f3) : w &&& 0x0000707f = p := hp ▸ (mask_funct3_iff w f3 op).2 h

/-- A word with the row's opcode, `funct3` and `funct7` matches a row that fixes these. -/
theorem matches_of_funct7 {w p : Word} (f7 : BitVec 7) (f3 : BitVec 3) (op : BitVec 7)
    (hp : p = (f7 ++ 0#10 ++ f3 ++ 0#5 ++ op : BitVec (7 + 10 + 3 + 5 + 7)))
    (h : opcodeField w = op ∧ funct3Field w = f3 ∧ funct7Field w = f7) : w &&& 0xfe00707f = p :=
  hp ▸ (mask_funct7_iff w f7 f3 op).2 h

/-! ### The `fence` words, which are not in one of the six formats -/

section
variable (high : BitVec 17) (low : BitVec 5) (mid : BitVec 10)

theorem fence_toNat : (encode (.fence high low)).toNat = high.toNat * 32768 + low.toNat * 128 + 15 := by
  simp only [encode, toNat_append_mul, show (0b000#3).toNat = 0 from rfl, show (0b0001111#7).toNat = 15 from rfl]; omega

theorem fenceI_toNat : (encode (.fenceI mid low)).toNat = mid.toNat * 32768 + 4096 + low.toNat * 128 + 15 := by
  simp only [encode, toNat_append_mul, show (0b0000000#7).toNat = 0 from rfl, show (0b001#3).toNat = 1 from rfl,
    show (0b0001111#7).toNat = 15 from rfl]
  omega

@[simp] theorem opcodeField_fence : opcodeField (encode (.fence high low)) = 0b0001111#7 :=
  extract_eq_of_toNat _ _ _ (by rw [fence_toNat, show (0b0001111#7).toNat = 15 from rfl]; omega)
@[simp] theorem funct3Field_fence : funct3Field (encode (.fence high low)) = 0b000#3 :=
  extract_eq_of_toNat _ _ _ (by rw [fence_toNat, show (0b000#3).toNat = 0 from rfl]; omega)
@[simp] theorem high_fence : (encode (.fence high low)).extractLsb' 15 17 = high :=
  extract_eq_of_toNat _ _ _ (by rw [fence_toNat]; omega)
@[simp] theorem low_fence : (encode (.fence high low)).extractLsb' 7 5 = low :=
  extract_eq_of_toNat _ _ _ (by rw [fence_toNat]; omega)

@[simp] theorem opcodeField_fenceI : opcodeField (encode (.fenceI mid low)) = 0b0001111#7 :=
  extract_eq_of_toNat _ _ _ (by rw [fenceI_toNat, show (0b0001111#7).toNat = 15 from rfl]; omega)
@[simp] theorem funct3Field_fenceI : funct3Field (encode (.fenceI mid low)) = 0b001#3 :=
  extract_eq_of_toNat _ _ _ (by rw [fenceI_toNat, show (0b001#3).toNat = 1 from rfl]; omega)
@[simp] theorem funct7Field_fenceI : funct7Field (encode (.fenceI mid low)) = 0b0000000#7 :=
  extract_eq_of_toNat _ _ _ (by rw [fenceI_toNat, show (0b0000000#7).toNat = 0 from rfl]; omega)
@[simp] theorem mid_fenceI : (encode (.fenceI mid low)).extractLsb' 15 10 = mid :=
  extract_eq_of_toNat _ _ _ (by rw [fenceI_toNat]; omega)
@[simp] theorem low_fenceI : (encode (.fenceI mid low)).extractLsb' 7 5 = low :=
  extract_eq_of_toNat _ _ _ (by rw [fenceI_toNat]; omega)

end

end Sys2Proof
end

