-- ==== Sys2Proof/Laws/State.lean ====
section
/-! SUPPORT. One lemma per field of `State` per update, so that no later proof unfolds a record update; and what a
register reads after each update. -/

namespace Sys2Proof.Machine

/-! ### `State.advance` -/

@[simp] theorem State.advance_regs (s : State) : s.advance.regs = s.regs := rfl
@[simp] theorem State.advance_pc (s : State) : s.advance.pc = s.pc + 4 := rfl
@[simp] theorem State.advance_mepc (s : State) : s.advance.mepc = s.mepc := rfl
@[simp] theorem State.advance_mie (s : State) : s.advance.mie = s.mie := rfl
@[simp] theorem State.advance_mpie (s : State) : s.advance.mpie = s.mpie := rfl
@[simp] theorem State.advance_mem (s : State) : s.advance.mem = s.mem := rfl
@[simp] theorem State.advance_fetchDirty (s : State) : s.advance.fetchDirty = s.fetchDirty := rfl
@[simp] theorem State.advance_irq (s : State) : s.advance.irq = s.irq := rfl
@[simp] theorem State.advance_cfg (s : State) : s.advance.cfg = s.cfg := rfl
@[simp] theorem State.advance_x (s : State) (r : Reg) : s.advance.x r = s.x r := rfl
@[simp] theorem State.advance_byte? (s : State) (c : Word) : s.advance.byte? c = s.byte? c := rfl

/-! ### `State.tick` -/

@[simp] theorem State.tick_regs (s : State) : s.tick.regs = s.regs := rfl
@[simp] theorem State.tick_pc (s : State) : s.tick.pc = s.pc := rfl
@[simp] theorem State.tick_mepc (s : State) : s.tick.mepc = s.mepc := rfl
@[simp] theorem State.tick_mie (s : State) : s.tick.mie = s.mie := rfl
@[simp] theorem State.tick_mpie (s : State) : s.tick.mpie = s.mpie := rfl
@[simp] theorem State.tick_mem (s : State) : s.tick.mem = s.mem := rfl
@[simp] theorem State.tick_fetchDirty (s : State) : s.tick.fetchDirty = s.fetchDirty := rfl
@[simp] theorem State.tick_irq (s : State) : s.tick.irq = s.irq.tail := rfl
@[simp] theorem State.tick_cfg (s : State) : s.tick.cfg = s.cfg := rfl
@[simp] theorem State.tick_x (s : State) (r : Reg) : s.tick.x r = s.x r := rfl
@[simp] theorem State.tick_byte? (s : State) (c : Word) : s.tick.byte? c = s.byte? c := rfl

/-! ### `State.trapEntry` -/

@[simp] theorem State.trapEntry_regs (s : State) : s.trapEntry.regs = s.regs := rfl
@[simp] theorem State.trapEntry_pc (s : State) : s.trapEntry.pc = s.cfg.trapVector := rfl
@[simp] theorem State.trapEntry_mepc (s : State) : s.trapEntry.mepc = s.pc := rfl
@[simp] theorem State.trapEntry_mie (s : State) : s.trapEntry.mie = false := rfl
@[simp] theorem State.trapEntry_mpie (s : State) : s.trapEntry.mpie = s.mie := rfl
@[simp] theorem State.trapEntry_mem (s : State) : s.trapEntry.mem = s.mem := rfl
@[simp] theorem State.trapEntry_fetchDirty (s : State) : s.trapEntry.fetchDirty = s.fetchDirty := rfl
@[simp] theorem State.trapEntry_irq (s : State) : s.trapEntry.irq = s.irq := rfl
@[simp] theorem State.trapEntry_cfg (s : State) : s.trapEntry.cfg = s.cfg := rfl
@[simp] theorem State.trapEntry_x (s : State) (r : Reg) : s.trapEntry.x r = s.x r := rfl
@[simp] theorem State.trapEntry_byte? (s : State) (c : Word) : s.trapEntry.byte? c = s.byte? c := rfl

/-! ### `State.trapReturn` -/

@[simp] theorem State.trapReturn_regs (s : State) : s.trapReturn.regs = s.regs := rfl
@[simp] theorem State.trapReturn_pc (s : State) : s.trapReturn.pc = s.mepc := rfl
@[simp] theorem State.trapReturn_mepc (s : State) : s.trapReturn.mepc = s.mepc := rfl
@[simp] theorem State.trapReturn_mie (s : State) : s.trapReturn.mie = s.mpie := rfl
@[simp] theorem State.trapReturn_mpie (s : State) : s.trapReturn.mpie = true := rfl
@[simp] theorem State.trapReturn_mem (s : State) : s.trapReturn.mem = s.mem := rfl
@[simp] theorem State.trapReturn_fetchDirty (s : State) : s.trapReturn.fetchDirty = s.fetchDirty := rfl
@[simp] theorem State.trapReturn_irq (s : State) : s.trapReturn.irq = s.irq := rfl
@[simp] theorem State.trapReturn_cfg (s : State) : s.trapReturn.cfg = s.cfg := rfl
@[simp] theorem State.trapReturn_x (s : State) (r : Reg) : s.trapReturn.x r = s.x r := rfl
@[simp] theorem State.trapReturn_byte? (s : State) (c : Word) : s.trapReturn.byte? c = s.byte? c := rfl

/-! ### `State.store` -/

@[simp] theorem State.store_regs (s : State) (a : Word) (n : Nat) (v : BitVec (8 * n)) : (s.store a n v).regs = s.regs := rfl
@[simp] theorem State.store_pc (s : State) (a : Word) (n : Nat) (v : BitVec (8 * n)) : (s.store a n v).pc = s.pc := rfl
@[simp] theorem State.store_mepc (s : State) (a : Word) (n : Nat) (v : BitVec (8 * n)) : (s.store a n v).mepc = s.mepc := rfl
@[simp] theorem State.store_mie (s : State) (a : Word) (n : Nat) (v : BitVec (8 * n)) : (s.store a n v).mie = s.mie := rfl
@[simp] theorem State.store_mpie (s : State) (a : Word) (n : Nat) (v : BitVec (8 * n)) : (s.store a n v).mpie = s.mpie := rfl
@[simp] theorem State.store_mem (s : State) (a : Word) (n : Nat) (v : BitVec (8 * n)) : (s.store a n v).mem = s.mem.writeLE a v n := rfl
@[simp] theorem State.store_fetchDirty (s : State) (a : Word) (n : Nat) (v : BitVec (8 * n)) : (s.store a n v).fetchDirty = s.fetchDirty.addBytes a n := rfl
@[simp] theorem State.store_irq (s : State) (a : Word) (n : Nat) (v : BitVec (8 * n)) : (s.store a n v).irq = s.irq := rfl
@[simp] theorem State.store_cfg (s : State) (a : Word) (n : Nat) (v : BitVec (8 * n)) : (s.store a n v).cfg = s.cfg := rfl
@[simp] theorem State.store_x (s : State) (a : Word) (n : Nat) (v : BitVec (8 * n)) (r : Reg) : (s.store a n v).x r = s.x r := rfl

/-! ### `State.setX` -/

@[simp] theorem State.setX_pc (s : State) (r : Reg) (v : Word) : (s.setX r v).pc = s.pc := by
  unfold State.setX; split <;> rfl
@[simp] theorem State.setX_mepc (s : State) (r : Reg) (v : Word) : (s.setX r v).mepc = s.mepc := by
  unfold State.setX; split <;> rfl
@[simp] theorem State.setX_mie (s : State) (r : Reg) (v : Word) : (s.setX r v).mie = s.mie := by
  unfold State.setX; split <;> rfl
@[simp] theorem State.setX_mpie (s : State) (r : Reg) (v : Word) : (s.setX r v).mpie = s.mpie := by
  unfold State.setX; split <;> rfl
@[simp] theorem State.setX_mem (s : State) (r : Reg) (v : Word) : (s.setX r v).mem = s.mem := by
  unfold State.setX; split <;> rfl
@[simp] theorem State.setX_fetchDirty (s : State) (r : Reg) (v : Word) : (s.setX r v).fetchDirty = s.fetchDirty := by
  unfold State.setX; split <;> rfl
@[simp] theorem State.setX_irq (s : State) (r : Reg) (v : Word) : (s.setX r v).irq = s.irq := by
  unfold State.setX; split <;> rfl
@[simp] theorem State.setX_cfg (s : State) (r : Reg) (v : Word) : (s.setX r v).cfg = s.cfg := by
  unfold State.setX; split <;> rfl
@[simp] theorem State.setX_byte? (s : State) (r : Reg) (v : Word) (c : Word) : (s.setX r v).byte? c = s.byte? c := by
  simp [State.byte?]

/-- A write of `x0` is discarded (R21). -/
@[simp] theorem State.setX_zero (s : State) (v : Word) : s.setX 0 v = s := rfl

/-- `x0` reads 0 (R21). -/
@[simp] theorem State.x_zero (s : State) : s.x 0 = 0 := rfl

/-- What a register reads after a write: the value in the register written, unless it is `x0`. -/
theorem State.x_setX (s : State) (rd r : Reg) (v : Word) :
    (s.setX rd v).x r = if r = rd ∧ rd ≠ 0 then v else s.x r := by
  unfold State.setX State.x
  by_cases hd : rd = 0
  · simp [hd]
  · by_cases hr : r = 0
    · subst hr; simp [hd, Ne.symm hd]
    · by_cases h : r = rd
      · subst h; simp [hd]
      · have : rd.val ≠ r.val := fun e => h (Fin.ext e.symm)
        simp [hd, hr, h, this]

/-- A register written reads the value, if it is not `x0`. -/
theorem State.x_setX_same (s : State) {rd : Reg} (h : rd ≠ 0) (v : Word) : (s.setX rd v).x rd = v := by
  simp [State.x_setX, h]

/-- Every other register reads as before. -/
theorem State.x_setX_other (s : State) {rd r : Reg} (h : r ≠ rd) (v : Word) : (s.setX rd v).x r = s.x r := by
  simp [State.x_setX, h]

/-- The slot of `x0` is never written. -/
@[simp] theorem State.setX_regs_zero (s : State) (r : Reg) (v : Word) : (s.setX r v).regs[0] = s.regs[0] := by
  unfold State.setX
  split
  · rfl
  · rename_i h
    have : r.val ≠ 0 := fun e => h (Fin.ext e)
    simp [this]

/-! ### A change of `pc` or of `fetch_dirty` alone -/

@[simp] theorem State.withPc_x (s : State) (p : Word) (r : Reg) : ({ s with pc := p } : State).x r = s.x r := rfl
@[simp] theorem State.withPc_byte? (s : State) (p c : Word) : ({ s with pc := p } : State).byte? c = s.byte? c := rfl
@[simp] theorem State.withDirty_x (s : State) (d : AddrSet) (r : Reg) :
    ({ s with fetchDirty := d } : State).x r = s.x r := rfl
@[simp] theorem State.withDirty_byte? (s : State) (d : AddrSet) (c : Word) :
    ({ s with fetchDirty := d } : State).byte? c = s.byte? c := rfl

end Sys2Proof.Machine
end

