-- ==== Sys2Proof/Laws/Memory.lean ====
section
/-! SUPPORT. Memory and address sets: a read after a write, everything else unchanged, the canonical form kept. -/

namespace Sys2Proof.Machine

/-! ### One byte -/

/-- What an address reads after a write of one byte. -/
theorem Memory.read?_write (m : Memory) (a c : Nat) (v : Byte) :
    (m.write a v).read? c = if c = a then some v else m.read? c := by
  induction m with
  | nil => simp [Memory.write, Memory.read?, eq_comm]
  | cons e m ih =>
    obtain ⟨k, b⟩ := e
    unfold Memory.write
    split
    · simp [Memory.read?, eq_comm]
    · split
      · rename_i h; subst h
        by_cases hc : c = a
        · simp [Memory.read?, hc]
        · simp [Memory.read?, hc, Ne.symm hc]
      · rename_i h
        by_cases hk : k = c
        · subst hk; simp [Memory.read?, Ne.symm h]
        · simp [Memory.read?, hk, ih]

/-- An address with a byte is one of the listed addresses. -/
theorem Memory.mem_write {m : Memory} {a : Nat} {v : Byte} {c : Host.Cell} (h : c ∈ m.write a v) :
    c = (a, v) ∨ c ∈ m := by
  induction m with
  | nil => simpa [Memory.write] using h
  | cons e m ih =>
    obtain ⟨k, b⟩ := e
    unfold Memory.write at h
    split at h
    · simpa using h
    · split at h
      · rcases List.mem_cons.1 h with h | h
        · exact .inl h
        · exact .inr (List.mem_cons_of_mem _ h)
      · rcases List.mem_cons.1 h with h | h
        · exact .inr (h ▸ List.mem_cons_self)
        · exact (ih h).imp id (List.mem_cons_of_mem _)

/-- A write of one byte keeps the canonical form. -/
theorem Memory.wf_write {m : Memory} (h : m.wf) {a : Nat} (ha : a < 4294967296) (v : Byte) : (m.write a v).wf := by
  refine ⟨?_, fun c hc => (Memory.mem_write hc).elim (fun e => e ▸ ha) (h.2 c)⟩
  replace h := h.1
  induction m with
  | nil => simp [Memory.write]
  | cons e m ih =>
    obtain ⟨k, b⟩ := e
    have hk := List.pairwise_cons.1 h
    unfold Memory.write
    split
    · rename_i hlt
      refine List.pairwise_cons.2 ⟨fun c hc => ?_, h⟩
      rcases List.mem_cons.1 hc with rfl | hc
      · exact hlt
      · exact Nat.lt_trans hlt (hk.1 c hc)
    · split
      · rename_i heq; subst heq
        exact List.pairwise_cons.2 ⟨fun c hc => hk.1 c hc, hk.2⟩
      · refine List.pairwise_cons.2 ⟨fun c hc => ?_, ih hk.2⟩
        rcases Memory.mem_write hc with rfl | hc
        · dsimp only; omega
        · exact hk.1 c hc

/-! ### Address sets -/

/-- The addresses of a set after one is added. -/
theorem AddrSet.mem_add (l : AddrSet) (a c : Nat) : c ∈ l.add a ↔ c ∈ l ∨ c = a := by
  induction l with
  | nil => simp [AddrSet.add]
  | cons k l ih =>
    unfold AddrSet.add
    split
    · simp [or_comm]
    · split
      · rename_i h; subst h; simp [or_comm]
      · simp [ih, or_assoc]

/-- Adding an address keeps the canonical form. -/
theorem AddrSet.wf_add {l : AddrSet} (h : l.wf) {a : Nat} (ha : a < 4294967296) : (l.add a).wf := by
  refine ⟨?_, fun c hc => ((AddrSet.mem_add l a c).1 hc).elim (h.2 c) (fun e => e ▸ ha)⟩
  replace h := h.1
  induction l with
  | nil => simp [AddrSet.add]
  | cons k l ih =>
    have hk := List.pairwise_cons.1 h
    unfold AddrSet.add
    split
    · rename_i hlt
      refine List.pairwise_cons.2 ⟨fun c hc => ?_, h⟩
      rcases List.mem_cons.1 hc with rfl | hc
      · exact hlt
      · exact Nat.lt_trans hlt (hk.1 c hc)
    · split
      · exact h
      · refine List.pairwise_cons.2 ⟨fun c hc => ?_, ih hk.2⟩
        rcases (AddrSet.mem_add l a c).1 hc with hc | rfl
        · exact hk.1 c hc
        · omega

/-! ### Several bytes -/

/-- `allBytes` says `p` of each byte. -/
theorem allBytes_eq_true (p : Word → Bool) (a : Word) (n : Nat) :
    allBytes p a n = true ↔ ∀ k, k < n → p (a + BitVec.ofNat 32 k) = true := by
  induction n with
  | zero => simp [allBytes]
  | succ n ih =>
    rw [allBytes, Bool.and_eq_true, ih]
    refine ⟨fun h k hk => ?_, fun h => ⟨fun k hk => h k (by omega), h n (by omega)⟩⟩
    rcases Nat.lt_succ_iff_lt_or_eq.1 hk with hk | rfl
    · exact h.1 k hk
    · exact h.2

/-- The bytes outside a store are as before. -/
theorem Memory.read?_writeLE_other (m : Memory) (a : Word) {w : Nat} (v : BitVec w) (n : Nat) {c : Nat}
    (h : ∀ k, k < n → c ≠ (a + BitVec.ofNat 32 k).toNat) : (m.writeLE a v n).read? c = m.read? c := by
  induction n with
  | zero => rfl
  | succ n ih =>
    rw [Memory.writeLE, Memory.read?_write, if_neg (h n (Nat.lt_succ_self n)), ih fun k hk => h k (by omega)]

/-- Two offsets below 2^32 from one address give one byte only if they are equal. -/
theorem offset_ne (a : Word) {j k : Nat} (hj : j < 4294967296) (hk : k < 4294967296) (h : j ≠ k) :
    (a + BitVec.ofNat 32 j).toNat ≠ (a + BitVec.ofNat 32 k).toNat := by
  intro e
  have e' := BitVec.eq_of_toNat_eq e
  have := congrArg (fun v => (v - a).toNat) e'
  simp [BitVec.add_comm a, Nat.mod_eq_of_lt hj, Nat.mod_eq_of_lt hk] at this
  exact h this

/-- The bytes of a store. -/
theorem Memory.read?_writeLE (m : Memory) (a : Word) {w : Nat} (v : BitVec w) (n : Nat) {k : Nat} (hk : k < n)
    (hn : n ≤ 4294967296) :
    (m.writeLE a v n).read? (a + BitVec.ofNat 32 k).toNat = some (v.extractLsb' (8 * k) 8) := by
  induction n with
  | zero => omega
  | succ n ih =>
    rw [Memory.writeLE, Memory.read?_write]
    by_cases h : k = n
    · subst h; rw [if_pos rfl]
    · rw [if_neg (offset_ne a (by omega) (by omega) h), ih (by omega) (by omega)]

/-- A store keeps the canonical form of memory. -/
theorem Memory.wf_writeLE {m : Memory} (h : m.wf) (a : Word) {w : Nat} (v : BitVec w) (n : Nat) :
    (m.writeLE a v n).wf := by
  induction n with
  | zero => exact h
  | succ n ih => exact Memory.wf_write ih (BitVec.isLt _) _

/-- A launch image is loaded in canonical form (R40). -/
theorem Memory.wf_load (image : List Host.Cell) : (Memory.load image).wf := by
  have : ∀ (l : List Host.Cell) (m : Memory), m.wf →
      (l.foldl (fun m c => m.write (c.1 % 4294967296) c.2) m : Memory).wf := by
    intro l
    induction l with
    | nil => exact fun m h => h
    | cons c l ih => exact fun m h => ih _ (Memory.wf_write h (Nat.mod_lt _ (by decide)) _)
  exact this image [] ⟨List.Pairwise.nil, by simp⟩

/-- The addresses a store adds to `fetch_dirty`. -/
theorem AddrSet.mem_addBytes (d : AddrSet) (a : Word) (n : Nat) (c : Nat) :
    c ∈ d.addBytes a n ↔ c ∈ d ∨ ∃ k, k < n ∧ c = (a + BitVec.ofNat 32 k).toNat := by
  induction n with
  | zero => simp [AddrSet.addBytes]
  | succ n ih =>
    rw [AddrSet.addBytes, AddrSet.mem_add, ih]
    constructor
    · rintro ((h | ⟨k, hk, e⟩) | e)
      · exact .inl h
      · exact .inr ⟨k, by omega, e⟩
      · exact .inr ⟨n, by omega, e⟩
    · rintro (h | ⟨k, hk, e⟩)
      · exact .inl (.inl h)
      · rcases Nat.lt_succ_iff_lt_or_eq.1 hk with hk | rfl
        · exact .inl (.inr ⟨k, hk, e⟩)
        · exact .inr e

/-- A store keeps the canonical form of `fetch_dirty`. -/
theorem AddrSet.wf_addBytes {d : AddrSet} (h : d.wf) (a : Word) (n : Nat) : (d.addBytes a n).wf := by
  induction n with
  | zero => exact h
  | succ n ih => exact AddrSet.wf_add ih (BitVec.isLt _)

/-- Nothing in front of a byte. -/
theorem nil_append_byte (b : Byte) : (0#0 ++ b : BitVec (0 + 8)) = b := 
  BitVec.eq_of_toNat_eq ((BitVec.toNat_append 0#0 b).trans (by simp))

/-- `MemRead` of 1, 2 and 4 bytes, byte by byte (R52). -/
theorem State.readLE_one (s : State) (a : Word) : s.readLE a 1 = s.byte a := nil_append_byte _

theorem State.readLE_two (s : State) (a : Word) : s.readLE a 2 = s.byte (a + 1) ++ s.byte a :=
  congrArg (fun v : BitVec 8 => v ++ s.byte a) (nil_append_byte (s.byte (a + 1)))

theorem State.readLE_four (s : State) (a : Word) :
    s.readLE a 4 = s.byte (a + 3) ++ s.byte (a + 2) ++ s.byte (a + 1) ++ s.byte a := by
  have h2 : a + 1 + 1 = a + 2 := by bv_omega
  have h3 : a + 1 + 1 + 1 = a + 3 := by bv_omega
  have := congrArg (fun v : BitVec 8 => v ++ s.byte (a + 2) ++ s.byte (a + 1) ++ s.byte a)
    (nil_append_byte (s.byte (a + 3)))
  rw [← h3, ← h2] at this ⊢
  exact this

end Sys2Proof.Machine
end

