-- ==== Sys2Proof/Laws/Ops.lean ====
section
/-! SUPPORT. One lemma per shared operation that says once what it can do: `raise`, a transfer, a memory access, a fetch,
the choice of the next instruction. Proofs cite these instead of unfolding the operations. -/

namespace Sys2Proof.Machine

/-! ### Taking an exception -/

/-- What `raise` does (R245, R246). -/
theorem State.raise_eq (s : State) (e : Exception) :
    s.raise e = if s.cfg.trapMode = .vector ∧ e.endsRun = false then .next s.trapEntry else .fault (.trap e s.pc) := by
  unfold State.raise
  cases hm : s.cfg.trapMode <;> cases he : e.endsRun <;> simp

/-- If `raise` goes on, it entered the trap under `TRAP_MODE = vector`. -/
theorem State.raise_next {s t : State} {e : Exception} (h : s.raise e = .next t) :
    s.cfg.trapMode = .vector ∧ e.endsRun = false ∧ t = s.trapEntry := by
  rw [State.raise_eq] at h
  split at h
  · rename_i hc; exact ⟨hc.1, hc.2, by cases h; rfl⟩
  · cases h

/-- If `raise` stops the run, the result is `Trap(e, pc, info)` of the state it was called in. -/
theorem State.raise_fault {s : State} {e : Exception} {r : Fault} (h : s.raise e = .fault r) : r = .trap e s.pc := by
  rw [State.raise_eq] at h
  split at h <;> cases h
  rfl

/-- `raise` never refuses. -/
theorem State.raise_not_refused {s : State} {e : Exception} {r : Refusal} : s.raise e ≠ .refused r := by
  rw [State.raise_eq]
  split <;> simp

/-- Trap entry changes `mepc`, `mpie`, `mie` and `pc` and nothing else (R246). -/
theorem State.trapEntry_entered (s : State) : TrapEntered s s.trapEntry :=
  ⟨rfl, rfl, rfl, rfl, fun _ => rfl, ⟨fun _ => rfl, rfl⟩, ⟨rfl, rfl⟩⟩

/-- The exceptions that always end the run are the `StaleFetch` ones (R240). -/
theorem Exception.endsRun_eq (e : Exception) : e.endsRun = true ↔ ∃ p, e = .staleFetch p := by
  cases e <;> simp [Exception.endsRun]

/-- `raise` is what `Raises` says. -/
theorem State.raise_raises (s : State) (e : Exception) : Raises s e (s.raise e) := by
  rw [State.raise_eq]
  refine ⟨fun h => by simp [h], fun h hp => ?_, fun h hp => ?_⟩
  · simp [(Exception.endsRun_eq e).2 hp]
  · have : e.endsRun = false := by
      rw [← Bool.not_eq_true, Exception.endsRun_eq]; rintro ⟨p, hp'⟩; exact hp p hp'
    exact ⟨s.trapEntry, by simp [h, this], s.trapEntry_entered⟩

/-! ### Alignment and transfers -/

/-- `alignedTo` is divisibility of the address. -/
theorem alignedTo_eq_true (n : Nat) (a : Word) : alignedTo n a = true ↔ a.toNat % n = 0 := by
  simp [alignedTo]

theorem alignedTo_eq_false (n : Nat) (a : Word) : alignedTo n a = false ↔ a.toNat % n ≠ 0 := by
  simp [alignedTo]

/-- Every address is aligned for a byte access. -/
@[simp] theorem alignedTo_one (a : Word) : alignedTo 1 a = true := by simp [alignedTo, Nat.mod_one]

/-- A transfer to an aligned target. -/
theorem State.transfer_aligned (s : State) {target : Word} (after : State) (h : target.toNat % 4 = 0) :
    s.transfer target after = .next { after with pc := target } := by
  simp [State.transfer, (alignedTo_eq_true 4 target).2 h]

/-- A transfer to a misaligned target raises in the state before (R160). -/
theorem State.transfer_misaligned (s : State) {target : Word} (after : State) (h : target.toNat % 4 ≠ 0) :
    s.transfer target after = s.raise (.instructionAddressMisaligned target) := by
  simp [State.transfer, (alignedTo_eq_false 4 target).2 h]

/-- If a transfer goes on, it reached an aligned target, or it entered a trap. -/
theorem State.transfer_next {s t after : State} {target : Word} (h : s.transfer target after = .next t) :
    (target.toNat % 4 = 0 ∧ t = { after with pc := target }) ∨
      (s.cfg.trapMode = .vector ∧ t = s.trapEntry) := by
  by_cases ha : target.toNat % 4 = 0
  · rw [s.transfer_aligned after ha] at h; cases h; exact .inl ⟨ha, rfl⟩
  · rw [s.transfer_misaligned after ha] at h
    have := State.raise_next h
    exact .inr ⟨this.1, this.2.2⟩

/-! ### Memory accesses -/

theorem State.admits_eq_true (s : State) (k : AccessKind) (a : Word) (n : Nat) :
    s.admits k a n = true ↔ Admitted s k a n := allBytes_eq_true _ _ _

theorem State.ordinary_eq_true (s : State) (a : Word) (n : Nat) : s.ordinary a n = true ↔ Ordinary s a n := by
  simp [State.ordinary, allBytes_eq_true, Ordinary]

/-- When `MemRead` reads (R52): the address is aligned, every byte admitted and none a device's. -/
theorem State.memRead_ok {s : State} {a : Word} {n : Nat} (ha : a.toNat % n = 0) (hm : Admitted s .read a n)
    (ho : Ordinary s a n) : s.memRead a n = .ok (s.readLE a n) := by
  simp [State.memRead, (alignedTo_eq_true n a).2 ha, (s.admits_eq_true .read a n).2 hm, (s.ordinary_eq_true a n).2 ho]

/-- A misaligned `MemRead` raises (R52 step 1). -/
theorem State.memRead_misaligned {s : State} {a : Word} {n : Nat} (ha : a.toNat % n ≠ 0) :
    s.memRead a n = .raise (.loadAddressMisaligned a) := by
  simp [State.memRead, (alignedTo_eq_false n a).2 ha]

/-- An aligned `MemRead` that is not admitted raises (R52 step 2). -/
theorem State.memRead_notAdmitted {s : State} {a : Word} {n : Nat} (ha : a.toNat % n = 0)
    (hm : ¬ Admitted s .read a n) : s.memRead a n = .raise (.loadAccessFault a) := by
  have : s.admits .read a n = false := by rw [← Bool.not_eq_true, s.admits_eq_true]; exact hm
  simp [State.memRead, (alignedTo_eq_true n a).2 ha, this]

/-- An aligned, admitted `MemRead` that touches a device is refused (R59). -/
theorem State.memRead_device {s : State} {a : Word} {n : Nat} (ha : a.toNat % n = 0) (hm : Admitted s .read a n)
    (ho : ¬ Ordinary s a n) : s.memRead a n = .refuse (.deviceAccess a) := by
  have : s.ordinary a n = false := by rw [← Bool.not_eq_true, s.ordinary_eq_true]; exact ho
  simp [State.memRead, (alignedTo_eq_true n a).2 ha, (s.admits_eq_true .read a n).2 hm, this]

/-- When `MemWrite` writes (R53). -/
theorem State.memWrite_ok {s : State} {a : Word} {n : Nat} {v : BitVec (8 * n)} (ha : a.toNat % n = 0)
    (hm : Admitted s .write a n) (ho : Ordinary s a n) : s.memWrite a n v = .ok (s.store a n v) := by
  simp [State.memWrite, (alignedTo_eq_true n a).2 ha, (s.admits_eq_true .write a n).2 hm, (s.ordinary_eq_true a n).2 ho]

/-- A misaligned `MemWrite` raises (R53 step 1). -/
theorem State.memWrite_misaligned {s : State} {a : Word} {n : Nat} {v : BitVec (8 * n)} (ha : a.toNat % n ≠ 0) :
    s.memWrite a n v = .raise (.storeAddressMisaligned a) := by
  simp [State.memWrite, (alignedTo_eq_false n a).2 ha]

/-- An aligned `MemWrite` that is not admitted raises (R53 step 2). -/
theorem State.memWrite_notAdmitted {s : State} {a : Word} {n : Nat} {v : BitVec (8 * n)} (ha : a.toNat % n = 0)
    (hm : ¬ Admitted s .write a n) : s.memWrite a n v = .raise (.storeAccessFault a) := by
  have : s.admits .write a n = false := by rw [← Bool.not_eq_true, s.admits_eq_true]; exact hm
  simp [State.memWrite, (alignedTo_eq_true n a).2 ha, this]

/-- An aligned, admitted `MemWrite` that touches a device is refused (R59). -/
theorem State.memWrite_device {s : State} {a : Word} {n : Nat} {v : BitVec (8 * n)} (ha : a.toNat % n = 0)
    (hm : Admitted s .write a n) (ho : ¬ Ordinary s a n) : s.memWrite a n v = .refuse (.deviceAccess a) := by
  have : s.ordinary a n = false := by rw [← Bool.not_eq_true, s.ordinary_eq_true]; exact ho
  simp [State.memWrite, (alignedTo_eq_true n a).2 ha, (s.admits_eq_true .write a n).2 hm, this]

/-- If `MemWrite` writes, it is the store, at an admitted address. -/
theorem State.memWrite_eq_ok {s t : State} {a : Word} {n : Nat} {v : BitVec (8 * n)} (h : s.memWrite a n v = .ok t) :
    a.toNat % n = 0 ∧ Admitted s .write a n ∧ Ordinary s a n ∧ t = s.store a n v := by
  by_cases ha : a.toNat % n = 0
  · by_cases hm : Admitted s .write a n
    · by_cases ho : Ordinary s a n
      · rw [State.memWrite_ok ha hm ho] at h; cases h; exact ⟨ha, hm, ho, rfl⟩
      · rw [State.memWrite_device ha hm ho] at h; cases h
    · rw [State.memWrite_notAdmitted ha hm] at h; cases h
  · rw [State.memWrite_misaligned ha] at h; cases h

/-- If an access goes on, it gave a value that went on, or it entered a trap. -/
theorem State.andThen_next {α : Type} {s t : State} {x : Access α} {k : α → StepResult} (h : s.andThen x k = .next t) :
    (∃ v, x = .ok v ∧ k v = .next t) ∨ (s.cfg.trapMode = .vector ∧ t = s.trapEntry) := by
  cases x with
  | ok v => exact .inl ⟨v, rfl, h⟩
  | raise e => have := State.raise_next h; exact .inr ⟨this.1, this.2.2⟩
  | refuse r => cases h

/-! ### A store -/

/-- The bytes a store writes, least significant first (R53). -/
theorem State.store_byte? (s : State) (a : Word) (n : Nat) (v : BitVec (8 * n)) {k : Nat} (hk : k < n)
    (hn : n ≤ 4294967296) : (s.store a n v).byte? (a + BitVec.ofNat 32 k) = some (v.extractLsb' (8 * k) 8) :=
  Memory.read?_writeLE _ _ _ _ hk hn

/-- Every other byte is as before (R53). -/
theorem State.store_byte?_other (s : State) (a : Word) (n : Nat) (v : BitVec (8 * n)) {b : Word}
    (h : ∀ k, k < n → b ≠ a + BitVec.ofNat 32 k) : (s.store a n v).byte? b = s.byte? b :=
  Memory.read?_writeLE_other _ _ _ _ fun k hk e => h k hk (BitVec.eq_of_toNat_eq e)

/-! ### The fetch -/

/-- A word is its four bytes. -/
theorem word_of_bytes (w : Word) :
    w.extractLsb' 24 8 ++ w.extractLsb' 16 8 ++ w.extractLsb' 8 8 ++ w.extractLsb' 0 8 = w := by
  refine BitVec.eq_of_getLsbD_eq fun i hi => ?_
  simp only [BitVec.getLsbD_append, BitVec.getLsbD_extractLsb']
  rcases (by omega : i < 8 ∨ (8 ≤ i ∧ i < 16) ∨ (16 ≤ i ∧ i < 24) ∨ (24 ≤ i ∧ i < 32)) with h | h | h | h
  · simp [h]
  · simp [show ¬ i < 8 by omega, show i - 8 < 8 by omega, show 8 + (i - 8) = i by omega]
  · simp [show ¬ i < 8 by omega, show ¬ i - 8 < 8 by omega, show i - 8 - 8 < 8 by omega,
      show 16 + (i - 8 - 8) = i by omega]
  · simp [show ¬ i < 8 by omega, show ¬ i - 8 < 8 by omega, show ¬ i - 8 - 8 < 8 by omega,
      show i - 8 - 8 - 8 < 8 by omega, show 24 + (i - 8 - 8 - 8) = i by omega]

/-- The bytes `Fetches` speaks of are what the fetch reads. -/
theorem State.fetch_of_fetches {s : State} {w : Word} (h : Fetches s w) : s.fetch = .ok w := by
  have hb : ∀ j, j < 4 → s.byte (s.pc + BitVec.ofNat 32 j) = w.extractLsb' (8 * j) 8 := fun j hj => by
    simp [State.byte, h.bytes j hj]
  have hstale : s.stale s.pc 4 = false := by
    simp only [State.stale, Bool.not_eq_false', allBytes_eq_true]
    intro k hk; simpa using h.fresh k hk
  have hloaded : s.loaded s.pc 4 = true := by
    rw [State.loaded, allBytes_eq_true]
    intro k hk; rw [h.bytes k hk]; rfl
  have hr : s.readLE s.pc 4 = w := by
    rw [State.readLE_four, ← word_of_bytes w]
    have h0 := hb 0 (by omega); have h1 := hb 1 (by omega); have h2 := hb 2 (by omega); have h3 := hb 3 (by omega)
    simp only [BitVec.add_zero, Nat.mul_zero] at h0
    rw [h0]
    exact congr (congrArg _ (congr (congrArg _ (congr (congrArg _ h3) h2)) h1)) rfl
  simp [State.fetch, (alignedTo_eq_true 4 s.pc).2 h.aligned, (s.admits_eq_true .fetch s.pc 4).2 h.admitted, hstale,
    (s.ordinary_eq_true s.pc 4).2 h.ordinary, hloaded, hr]

/-- The instruction a step runs, when the word at `pc` is one and no interrupt is taken. -/
theorem State.nextInstr_of_fetches {s : State} {w : Word} {i : Instr} (hn : NoInterrupt s) (h : Fetches s w)
    (hd : decode w = .ok i) : s.nextInstr = .ok i := by
  have : (s.irqPending && s.mie) = false := by
    rcases hn with hn | hn <;> simp [hn]
  simp [State.nextInstr, this, State.fetch_of_fetches h, hd]

/-! ### Launch and reset -/

/-- `State.reset` is a launch state, with the offered parameters and an empty image. -/
theorem State.reset_eq_launch :
    State.reset = State.launch Config.offered (Vector.replicate 32 0) 0 false [] [] := by decide

end Sys2Proof.Machine
end

