-- ==== Sys2Proof/Laws/Exec.lean ====
section
/-! SUPPORT. What an instruction and a step can do: one inversion lemma for `exec`, one for `step`. Invariants and frames
follow from these without unfolding the meanings again. -/

namespace Sys2Proof.Machine

/-- The next states instruction `i` can give, over the state it ran in. -/
inductive ExecShape (i : Instr) (s : State) : State → Prop where
  /-- An exception was taken under `TRAP_MODE = vector` (R246). -/
  | trap (h : s.cfg.trapMode = .vector) : ExecShape i s s.trapEntry
  /-- A register result (R131, R140, R180, R220). -/
  | register (rd : Reg) (v : Word) (hi : i.rd? = some rd) : ExecShape i s (s.setX rd v).advance
  /-- Nothing but `pc + 4`: a branch not taken, `fence`. -/
  | advance : ExecShape i s s.advance
  /-- A branch taken (R160). -/
  | branch (target : Word) (h : target.toNat % 4 = 0) : ExecShape i s { s with pc := target }
  /-- A jump that links (R167, R168). -/
  | jump (rd : Reg) (v target : Word) (hi : i.rd? = some rd) (h : target.toNat % 4 = 0) :
    ExecShape i s { s.setX rd v with pc := target }
  /-- `mret` (R201). -/
  | trapReturn (hi : i = .mret) (h : s.mepc.toNat % 4 = 0) : ExecShape i s s.trapReturn
  /-- A store (R53). -/
  | store (a : Word) (n : Nat) (v : BitVec (8 * n)) (hi : i.storesTo s = some (a, n)) :
    ExecShape i s (s.store a n v).advance
  /-- `fence.i` (R204). -/
  | fenceI : ExecShape i s { s.advance with fetchDirty := [] }

theorem ExecShape.of_writeRd {i : Instr} {s t : State} {rd : Reg} {v : Word} (h : s.writeRd rd v = .next t)
    (hi : i.rd? = some rd) : ExecShape i s t := by
  cases h; exact .register rd v hi

theorem ExecShape.of_jump {i : Instr} {s t : State} {rd : Reg} {v target : Word}
    (h : s.transfer target (s.setX rd v) = .next t) (hi : i.rd? = some rd) : ExecShape i s t := by
  rcases State.transfer_next h with ⟨ha, rfl⟩ | ⟨hm, rfl⟩
  · exact .jump rd v target hi ha
  · exact .trap hm

theorem ExecShape.of_branch {i : Instr} {s t : State} {c : Word → Word → Bool} {rs1 rs2 : Reg} {dist : BitVec 13}
    (h : execBranch c rs1 rs2 dist s = .next t) : ExecShape i s t := by
  unfold execBranch at h
  split at h
  · rcases State.transfer_next h with ⟨ha, rfl⟩ | ⟨hm, rfl⟩
    · exact .branch _ ha
    · exact .trap hm
  · cases h; exact .advance

theorem ExecShape.of_load {i : Instr} {s t : State} {n : Nat} {ext : BitVec (8 * n) → Word} {rd rs1 : Reg}
    {imm : BitVec 12} (h : execLoad n ext rd rs1 imm s = .next t) (hi : i.rd? = some rd) : ExecShape i s t := by
  rcases State.andThen_next h with ⟨v, -, hv⟩ | ⟨hm, rfl⟩
  · exact .of_writeRd hv hi
  · exact .trap hm

theorem ExecShape.of_store {i : Instr} {s t : State} {n : Nat} {rs2 rs1 : Reg} {imm : BitVec 12}
    (h : execStore n rs2 rs1 imm s = .next t) (hi : i.storesTo s = some (s.effAddr rs1 imm, n)) : ExecShape i s t := by
  rcases State.andThen_next h with ⟨u, hu, hv⟩ | ⟨hm, rfl⟩
  · obtain ⟨-, -, -, rfl⟩ := State.memWrite_eq_ok hu
    cases hv; exact .store _ _ _ hi
  · exact .trap hm

theorem ExecShape.of_mret {s t : State} (h : execMret s = .next t) : ExecShape .mret s t := by
  rcases State.transfer_next h with ⟨ha, rfl⟩ | ⟨hm, rfl⟩
  · exact .trapReturn rfl ha
  · exact .trap hm

/-- What an instruction can do. -/
theorem exec_next {i : Instr} {s t : State} (h : exec i s = .next t) : ExecShape i s t := by
  cases i with
  | jal | jalr => exact .of_jump h rfl
  | beq | bne | blt | bge | bltu | bgeu =>
    simp only [exec, execBeq, execBne, execBlt, execBge, execBltu, execBgeu] at h
    exact .of_branch h
  | lb | lh | lw | lbu | lhu => exact .of_load h rfl
  | sb | sh | sw => exact .of_store h rfl
  | mret => exact .of_mret h
  | ecall => have := State.raise_next h; exact this.2.2 ▸ .trap this.1
  | fence => cases h; exact .advance
  | fenceI => cases h; exact .fenceI
  | _ => exact .of_writeRd h rfl

/-- What a step can do: enter a trap, or run an instruction, in the state whose interrupt sample was taken. -/
theorem step_next {s t : State} (h : step s = .next t) :
    (s.cfg.trapMode = .vector ∧ t = s.tick.trapEntry) ∨
      ∃ i, s.nextInstr = .ok i ∧ exec i s.tick = .next t := by
  rcases State.andThen_next h with ⟨i, hi, he⟩ | ⟨hm, rfl⟩
  · exact .inr ⟨i, hi, he⟩
  · exact .inl ⟨hm, rfl⟩

end Sys2Proof.Machine
end

