-- ==== Sys2Proof/Laws/PerInstr.lean ====
section
/-! SUPPORT. One family of laws per instruction: the word an instruction encodes to passes the mask test of its own row
of the opcode table (`30_encoding.md` R97). -/

namespace Sys2Proof.Laws.EncodingMatchesRow

/-- The encoded word matches the row. -/
def Statement (i : Instr) : Prop := encode i &&& i.row.mask = i.row.pattern

theorem lui (rd : Reg) (imm : BitVec 20) : Statement (.lui rd imm) :=
  show encode (.lui rd imm) &&& 0x0000007f = 0x00000037 from
    matches_of_opcode 0x37#7 (by decide) (by simp [encode])

theorem auipc (rd : Reg) (imm : BitVec 20) : Statement (.auipc rd imm) :=
  show encode (.auipc rd imm) &&& 0x0000007f = 0x00000017 from
    matches_of_opcode 0x17#7 (by decide) (by simp [encode])

theorem jal (rd : Reg) (dist : BitVec 21) : Statement (.jal rd dist) :=
  show encode (.jal rd dist) &&& 0x0000007f = 0x0000006f from
    matches_of_opcode 0x6f#7 (by decide) (by simp [encode])

theorem jalr (rd rs1 : Reg) (imm : BitVec 12) : Statement (.jalr rd rs1 imm) :=
  show encode (.jalr rd rs1 imm) &&& 0x0000707f = 0x00000067 from
    matches_of_funct3 0#3 0x67#7 (by decide) (by simp [encode])

theorem beq (rs1 rs2 : Reg) (dist : BitVec 13) : Statement (.beq rs1 rs2 dist) :=
  show encode (.beq rs1 rs2 dist) &&& 0x0000707f = 0x00000063 from
    matches_of_funct3 0#3 0x63#7 (by decide) (by simp [encode])

theorem bne (rs1 rs2 : Reg) (dist : BitVec 13) : Statement (.bne rs1 rs2 dist) :=
  show encode (.bne rs1 rs2 dist) &&& 0x0000707f = 0x00001063 from
    matches_of_funct3 1#3 0x63#7 (by decide) (by simp [encode])

theorem blt (rs1 rs2 : Reg) (dist : BitVec 13) : Statement (.blt rs1 rs2 dist) :=
  show encode (.blt rs1 rs2 dist) &&& 0x0000707f = 0x00004063 from
    matches_of_funct3 4#3 0x63#7 (by decide) (by simp [encode])

theorem bge (rs1 rs2 : Reg) (dist : BitVec 13) : Statement (.bge rs1 rs2 dist) :=
  show encode (.bge rs1 rs2 dist) &&& 0x0000707f = 0x00005063 from
    matches_of_funct3 5#3 0x63#7 (by decide) (by simp [encode])

theorem bltu (rs1 rs2 : Reg) (dist : BitVec 13) : Statement (.bltu rs1 rs2 dist) :=
  show encode (.bltu rs1 rs2 dist) &&& 0x0000707f = 0x00006063 from
    matches_of_funct3 6#3 0x63#7 (by decide) (by simp [encode])

theorem bgeu (rs1 rs2 : Reg) (dist : BitVec 13) : Statement (.bgeu rs1 rs2 dist) :=
  show encode (.bgeu rs1 rs2 dist) &&& 0x0000707f = 0x00007063 from
    matches_of_funct3 7#3 0x63#7 (by decide) (by simp [encode])

theorem lb (rd rs1 : Reg) (imm : BitVec 12) : Statement (.lb rd rs1 imm) :=
  show encode (.lb rd rs1 imm) &&& 0x0000707f = 0x00000003 from
    matches_of_funct3 0#3 0x03#7 (by decide) (by simp [encode])

theorem lh (rd rs1 : Reg) (imm : BitVec 12) : Statement (.lh rd rs1 imm) :=
  show encode (.lh rd rs1 imm) &&& 0x0000707f = 0x00001003 from
    matches_of_funct3 1#3 0x03#7 (by decide) (by simp [encode])

theorem lw (rd rs1 : Reg) (imm : BitVec 12) : Statement (.lw rd rs1 imm) :=
  show encode (.lw rd rs1 imm) &&& 0x0000707f = 0x00002003 from
    matches_of_funct3 2#3 0x03#7 (by decide) (by simp [encode])

theorem lbu (rd rs1 : Reg) (imm : BitVec 12) : Statement (.lbu rd rs1 imm) :=
  show encode (.lbu rd rs1 imm) &&& 0x0000707f = 0x00004003 from
    matches_of_funct3 4#3 0x03#7 (by decide) (by simp [encode])

theorem lhu (rd rs1 : Reg) (imm : BitVec 12) : Statement (.lhu rd rs1 imm) :=
  show encode (.lhu rd rs1 imm) &&& 0x0000707f = 0x00005003 from
    matches_of_funct3 5#3 0x03#7 (by decide) (by simp [encode])

theorem sb (rs2 rs1 : Reg) (imm : BitVec 12) : Statement (.sb rs2 rs1 imm) :=
  show encode (.sb rs2 rs1 imm) &&& 0x0000707f = 0x00000023 from
    matches_of_funct3 0#3 0x23#7 (by decide) (by simp [encode])

theorem sh (rs2 rs1 : Reg) (imm : BitVec 12) : Statement (.sh rs2 rs1 imm) :=
  show encode (.sh rs2 rs1 imm) &&& 0x0000707f = 0x00001023 from
    matches_of_funct3 1#3 0x23#7 (by decide) (by simp [encode])

theorem sw (rs2 rs1 : Reg) (imm : BitVec 12) : Statement (.sw rs2 rs1 imm) :=
  show encode (.sw rs2 rs1 imm) &&& 0x0000707f = 0x00002023 from
    matches_of_funct3 2#3 0x23#7 (by decide) (by simp [encode])

theorem addi (rd rs1 : Reg) (imm : BitVec 12) : Statement (.addi rd rs1 imm) :=
  show encode (.addi rd rs1 imm) &&& 0x0000707f = 0x00000013 from
    matches_of_funct3 0#3 0x13#7 (by decide) (by simp [encode])

theorem slti (rd rs1 : Reg) (imm : BitVec 12) : Statement (.slti rd rs1 imm) :=
  show encode (.slti rd rs1 imm) &&& 0x0000707f = 0x00002013 from
    matches_of_funct3 2#3 0x13#7 (by decide) (by simp [encode])

theorem sltiu (rd rs1 : Reg) (imm : BitVec 12) : Statement (.sltiu rd rs1 imm) :=
  show encode (.sltiu rd rs1 imm) &&& 0x0000707f = 0x00003013 from
    matches_of_funct3 3#3 0x13#7 (by decide) (by simp [encode])

theorem xori (rd rs1 : Reg) (imm : BitVec 12) : Statement (.xori rd rs1 imm) :=
  show encode (.xori rd rs1 imm) &&& 0x0000707f = 0x00004013 from
    matches_of_funct3 4#3 0x13#7 (by decide) (by simp [encode])

theorem ori (rd rs1 : Reg) (imm : BitVec 12) : Statement (.ori rd rs1 imm) :=
  show encode (.ori rd rs1 imm) &&& 0x0000707f = 0x00006013 from
    matches_of_funct3 6#3 0x13#7 (by decide) (by simp [encode])

theorem andi (rd rs1 : Reg) (imm : BitVec 12) : Statement (.andi rd rs1 imm) :=
  show encode (.andi rd rs1 imm) &&& 0x0000707f = 0x00007013 from
    matches_of_funct3 7#3 0x13#7 (by decide) (by simp [encode])

theorem slli (rd rs1 : Reg) (shamt : BitVec 5) : Statement (.slli rd rs1 shamt) :=
  show encode (.slli rd rs1 shamt) &&& 0xfe00707f = 0x00001013 from
    matches_of_funct7 0x00#7 1#3 0x13#7 (by decide) (by simp [encode])

theorem srli (rd rs1 : Reg) (shamt : BitVec 5) : Statement (.srli rd rs1 shamt) :=
  show encode (.srli rd rs1 shamt) &&& 0xfe00707f = 0x00005013 from
    matches_of_funct7 0x00#7 5#3 0x13#7 (by decide) (by simp [encode])

theorem srai (rd rs1 : Reg) (shamt : BitVec 5) : Statement (.srai rd rs1 shamt) :=
  show encode (.srai rd rs1 shamt) &&& 0xfe00707f = 0x40005013 from
    matches_of_funct7 0x20#7 5#3 0x13#7 (by decide) (by simp [encode])

theorem add (rd rs1 rs2 : Reg) : Statement (.add rd rs1 rs2) :=
  show encode (.add rd rs1 rs2) &&& 0xfe00707f = 0x00000033 from
    matches_of_funct7 0x00#7 0#3 0x33#7 (by decide) (by simp [encode, encodeOp])

theorem sub (rd rs1 rs2 : Reg) : Statement (.sub rd rs1 rs2) :=
  show encode (.sub rd rs1 rs2) &&& 0xfe00707f = 0x40000033 from
    matches_of_funct7 0x20#7 0#3 0x33#7 (by decide) (by simp [encode, encodeOp])

theorem sll (rd rs1 rs2 : Reg) : Statement (.sll rd rs1 rs2) :=
  show encode (.sll rd rs1 rs2) &&& 0xfe00707f = 0x00001033 from
    matches_of_funct7 0x00#7 1#3 0x33#7 (by decide) (by simp [encode, encodeOp])

theorem slt (rd rs1 rs2 : Reg) : Statement (.slt rd rs1 rs2) :=
  show encode (.slt rd rs1 rs2) &&& 0xfe00707f = 0x00002033 from
    matches_of_funct7 0x00#7 2#3 0x33#7 (by decide) (by simp [encode, encodeOp])

theorem sltu (rd rs1 rs2 : Reg) : Statement (.sltu rd rs1 rs2) :=
  show encode (.sltu rd rs1 rs2) &&& 0xfe00707f = 0x00003033 from
    matches_of_funct7 0x00#7 3#3 0x33#7 (by decide) (by simp [encode, encodeOp])

theorem xor (rd rs1 rs2 : Reg) : Statement (.xor rd rs1 rs2) :=
  show encode (.xor rd rs1 rs2) &&& 0xfe00707f = 0x00004033 from
    matches_of_funct7 0x00#7 4#3 0x33#7 (by decide) (by simp [encode, encodeOp])

theorem srl (rd rs1 rs2 : Reg) : Statement (.srl rd rs1 rs2) :=
  show encode (.srl rd rs1 rs2) &&& 0xfe00707f = 0x00005033 from
    matches_of_funct7 0x00#7 5#3 0x33#7 (by decide) (by simp [encode, encodeOp])

theorem sra (rd rs1 rs2 : Reg) : Statement (.sra rd rs1 rs2) :=
  show encode (.sra rd rs1 rs2) &&& 0xfe00707f = 0x40005033 from
    matches_of_funct7 0x20#7 5#3 0x33#7 (by decide) (by simp [encode, encodeOp])

theorem or (rd rs1 rs2 : Reg) : Statement (.or rd rs1 rs2) :=
  show encode (.or rd rs1 rs2) &&& 0xfe00707f = 0x00006033 from
    matches_of_funct7 0x00#7 6#3 0x33#7 (by decide) (by simp [encode, encodeOp])

theorem and (rd rs1 rs2 : Reg) : Statement (.and rd rs1 rs2) :=
  show encode (.and rd rs1 rs2) &&& 0xfe00707f = 0x00007033 from
    matches_of_funct7 0x00#7 7#3 0x33#7 (by decide) (by simp [encode, encodeOp])

theorem mul (rd rs1 rs2 : Reg) : Statement (.mul rd rs1 rs2) :=
  show encode (.mul rd rs1 rs2) &&& 0xfe00707f = 0x02000033 from
    matches_of_funct7 0x01#7 0#3 0x33#7 (by decide) (by simp [encode, encodeOp])

theorem mulh (rd rs1 rs2 : Reg) : Statement (.mulh rd rs1 rs2) :=
  show encode (.mulh rd rs1 rs2) &&& 0xfe00707f = 0x02001033 from
    matches_of_funct7 0x01#7 1#3 0x33#7 (by decide) (by simp [encode, encodeOp])

theorem mulhsu (rd rs1 rs2 : Reg) : Statement (.mulhsu rd rs1 rs2) :=
  show encode (.mulhsu rd rs1 rs2) &&& 0xfe00707f = 0x02002033 from
    matches_of_funct7 0x01#7 2#3 0x33#7 (by decide) (by simp [encode, encodeOp])

theorem mulhu (rd rs1 rs2 : Reg) : Statement (.mulhu rd rs1 rs2) :=
  show encode (.mulhu rd rs1 rs2) &&& 0xfe00707f = 0x02003033 from
    matches_of_funct7 0x01#7 3#3 0x33#7 (by decide) (by simp [encode, encodeOp])

theorem div (rd rs1 rs2 : Reg) : Statement (.div rd rs1 rs2) :=
  show encode (.div rd rs1 rs2) &&& 0xfe00707f = 0x02004033 from
    matches_of_funct7 0x01#7 4#3 0x33#7 (by decide) (by simp [encode, encodeOp])

theorem divu (rd rs1 rs2 : Reg) : Statement (.divu rd rs1 rs2) :=
  show encode (.divu rd rs1 rs2) &&& 0xfe00707f = 0x02005033 from
    matches_of_funct7 0x01#7 5#3 0x33#7 (by decide) (by simp [encode, encodeOp])

theorem rem (rd rs1 rs2 : Reg) : Statement (.rem rd rs1 rs2) :=
  show encode (.rem rd rs1 rs2) &&& 0xfe00707f = 0x02006033 from
    matches_of_funct7 0x01#7 6#3 0x33#7 (by decide) (by simp [encode, encodeOp])

theorem remu (rd rs1 rs2 : Reg) : Statement (.remu rd rs1 rs2) :=
  show encode (.remu rd rs1 rs2) &&& 0xfe00707f = 0x02007033 from
    matches_of_funct7 0x01#7 7#3 0x33#7 (by decide) (by simp [encode, encodeOp])

theorem mret : Statement .mret :=
  by unfold Statement; decide

theorem ecall : Statement .ecall :=
  by unfold Statement; decide

theorem fence (high : BitVec 17) (low : BitVec 5) : Statement (.fence high low) :=
  show encode (.fence high low) &&& 0x0000707f = 0x0000000f from
    matches_of_funct3 0#3 0x0f#7 (by decide) (by simp)

theorem fenceI (mid : BitVec 10) (low : BitVec 5) : Statement (.fenceI mid low) :=
  show encode (.fenceI mid low) &&& 0xfe00707f = 0x0000100f from
    matches_of_funct7 0x00#7 1#3 0x0f#7 (by decide) (by simp)

end Sys2Proof.Laws.EncodingMatchesRow
end

