-- ==== Sys2Proof/Tests/Slice0.lean ====
section
/-! SUPPORT. Tests. The expected results are those of `95_test_vectors.md` and of the examples in the rules of spec/, which
the spec derives from its rules; nothing here was pasted from this model's own answers. Then, for every obligation with
hypotheses, a witness: a state and operands that meet all of them. -/

namespace Sys2Proof.Tests

open Sys2Proof.Machine

/-! ### Ill-formed terms: an odd distance is refused (`30_encoding.md` R92, R94, R100) -/

theorem test_wf_jal_odd : (Instr.jal 1 1).wf = false := by decide
theorem test_wf_jal_odd_large : (Instr.jal 1 0xfffff).wf = false := by decide
theorem test_wf_jal_even : (Instr.jal 1 0x100000).wf = true := by decide
theorem test_wf_beq_odd : (Instr.beq 1 2 3).wf = false := by decide
theorem test_wf_bne_odd : (Instr.bne 1 2 3).wf = false := by decide
theorem test_wf_blt_odd : (Instr.blt 1 2 3).wf = false := by decide
theorem test_wf_bge_odd : (Instr.bge 1 2 3).wf = false := by decide
theorem test_wf_bltu_odd : (Instr.bltu 1 2 3).wf = false := by decide
theorem test_wf_bgeu_odd : (Instr.bgeu 1 2 3).wf = false := by decide
theorem test_wf_beq_even : (Instr.beq 1 2 0x1000).wf = true := by decide
theorem test_wf_add : (Instr.add 1 2 3).wf = true := by decide

/-! ### Decoding: words of `95_test_vectors.md` and of the rules' examples -/

theorem test_decode_lui : decode 0x12345537 = .ok (.lui 10 0x12345) := by decide
theorem test_decode_auipc : decode 0xfffff517 = .ok (.auipc 10 0xFFFFF) := by decide
theorem test_decode_jal_largest : decode 0x7ffff0ef = .ok (.jal 1 0x0FFFFE) := by decide
theorem test_decode_jal_smallest : decode 0x800000ef = .ok (.jal 1 0x100000) := by decide
theorem test_decode_jal_bit11 : decode 0x001000ef = .ok (.jal 1 0x800) := by decide
theorem test_decode_jalr : decode 0xffc300e7 = .ok (.jalr 1 6 0xFFC) := by decide
theorem test_decode_beq_largest : decode 0x7ec58fe3 = .ok (.beq 11 12 0xFFE) := by decide
theorem test_decode_beq_smallest : decode 0x80c58063 = .ok (.beq 11 12 0x1000) := by decide
theorem test_decode_bne : decode 0x00c59163 = .ok (.bne 11 12 2) := by decide
theorem test_decode_blt : decode 0xfec5cfe3 = .ok (.blt 11 12 0x1FFE) := by decide
theorem test_decode_bge_bit11 : decode 0x00c5d0e3 = .ok (.bge 11 12 0x800) := by decide
theorem test_decode_bltu : decode 0x7ec5ef63 = .ok (.bltu 11 12 0x7FE) := by decide
theorem test_decode_bgeu : decode 0x80c5f0e3 = .ok (.bgeu 11 12 0x1800) := by decide
theorem test_decode_lb : decode 0xfff30283 = .ok (.lb 5 6 0xFFF) := by decide
theorem test_decode_lh : decode 0x00231283 = .ok (.lh 5 6 2) := by decide
theorem test_decode_lw : decode 0x8005a503 = .ok (.lw 10 11 0x800) := by decide
theorem test_decode_lbu : decode 0x00334283 = .ok (.lbu 5 6 3) := by decide
theorem test_decode_lhu : decode 0x00235283 = .ok (.lhu 5 6 2) := by decide
theorem test_decode_sb_largest : decode 0x7e730fa3 = .ok (.sb 7 6 0x7FF) := by decide
theorem test_decode_sh : decode 0x00731123 = .ok (.sh 7 6 2) := by decide
theorem test_decode_sw : decode 0xfe512e23 = .ok (.sw 5 2 0xFFC) := by decide
theorem test_decode_addi : decode 0x80058513 = .ok (.addi 10 11 0x800) := by decide
theorem test_decode_slti : decode 0xfff32293 = .ok (.slti 5 6 0xFFF) := by decide
theorem test_decode_sltiu : decode 0x00133293 = .ok (.sltiu 5 6 1) := by decide
theorem test_decode_xori : decode 0xfff34293 = .ok (.xori 5 6 0xFFF) := by decide
theorem test_decode_ori : decode 0xf0036293 = .ok (.ori 5 6 0xF00) := by decide
theorem test_decode_andi : decode 0xff037293 = .ok (.andi 5 6 0xFF0) := by decide
theorem test_decode_slli : decode 0x01f59513 = .ok (.slli 10 11 31) := by decide
theorem test_decode_srli : decode 0x00435293 = .ok (.srli 5 6 4) := by decide
theorem test_decode_srai : decode 0x41f5d513 = .ok (.srai 10 11 31) := by decide
theorem test_decode_add : decode 0x002081b3 = .ok (.add 3 1 2) := by decide
theorem test_decode_sub : decode 0x402081b3 = .ok (.sub 3 1 2) := by decide
theorem test_decode_sll : decode 0x007312b3 = .ok (.sll 5 6 7) := by decide
theorem test_decode_slt : decode 0x00c5a533 = .ok (.slt 10 11 12) := by decide
theorem test_decode_sltu : decode 0x00c5b533 = .ok (.sltu 10 11 12) := by decide
theorem test_decode_xor : decode 0x007342b3 = .ok (.xor 5 6 7) := by decide
theorem test_decode_srl : decode 0x007352b3 = .ok (.srl 5 6 7) := by decide
theorem test_decode_sra : decode 0x407352b3 = .ok (.sra 5 6 7) := by decide
theorem test_decode_or : decode 0x007362b3 = .ok (.or 5 6 7) := by decide
theorem test_decode_and : decode 0x007372b3 = .ok (.and 5 6 7) := by decide
theorem test_decode_mul : decode 0x02c58533 = .ok (.mul 10 11 12) := by decide
theorem test_decode_mulh : decode 0x02c59533 = .ok (.mulh 10 11 12) := by decide
theorem test_decode_mulhsu : decode 0x02c5a533 = .ok (.mulhsu 10 11 12) := by decide
theorem test_decode_mulhu : decode 0x02c5b533 = .ok (.mulhu 10 11 12) := by decide
theorem test_decode_div : decode 0x02c5c533 = .ok (.div 10 11 12) := by decide
theorem test_decode_divu : decode 0x02c5d533 = .ok (.divu 10 11 12) := by decide
theorem test_decode_rem : decode 0x02c5e533 = .ok (.rem 10 11 12) := by decide
theorem test_decode_remu : decode 0x02c5f533 = .ok (.remu 10 11 12) := by decide
theorem test_decode_mret : decode 0x30200073 = .ok (.mret) := by decide
theorem test_decode_ecall : decode 0x00000073 = .ok (.ecall) := by decide
theorem test_decode_fence : decode 0x8330000f = .ok (.fence 0x10660 0) := by decide
theorem test_decode_fenceI : decode 0x0000100f = .ok (.fenceI 0 0) := by decide

/-- The host's question, on the word of `sw x5, -4(x2)`. -/
theorem test_decodeTableWord_sw : decodeTableWord 32 0xfe512e23 = some (.sw 5 2 0xFFC) := by decide
/-- The bytes of a word lie least significant first (R51), and the bytes after it are left. -/
theorem test_decodeBytes : decodeBytes [0x93, 0x02, 0xA0, 0x00, 0x07] = .ok (.addi 5 0 10, [0x07]) := by rfl
theorem test_decodeBytes_truncated : decodeBytes [0x93, 0x02, 0xA0] = .error .truncated := by rfl

/-! ### Undefined encodings, each rejected by name (`95_test_vectors.md` section 2.8) -/

theorem test_illegal_00000000 : decode 0x00000000 = .error (.opcode 0) := by decide
theorem test_illegal_ffffffff : decode 0xffffffff = .error (.opcode 0x7F) := by decide
theorem test_illegal_00000001 : decode 0x00000001 = .error (.opcode 1) := by decide
theorem test_illegal_00100073 : decode 0x00100073 = .error (.system 0x00100073) := by decide
theorem test_illegal_10500073 : decode 0x10500073 = .error (.system 0x10500073) := by decide
theorem test_illegal_10200073 : decode 0x10200073 = .error (.system 0x10200073) := by decide
theorem test_illegal_30002573 : decode 0x30002573 = .error (.system 0x30002573) := by decide
theorem test_illegal_302000f3 : decode 0x302000f3 = .error (.system 0x302000F3) := by decide
theorem test_illegal_02059513 : decode 0x02059513 = .error (.funct7 0x13 1 1) := by decide
theorem test_illegal_40059513 : decode 0x40059513 = .error (.funct7 0x13 1 0x20) := by decide
theorem test_illegal_2005d513 : decode 0x2005d513 = .error (.funct7 0x13 5 0x10) := by decide
theorem test_illegal_00003003 : decode 0x00003003 = .error (.funct3 3 3) := by decide
theorem test_illegal_00006003 : decode 0x00006003 = .error (.funct3 3 6) := by decide
theorem test_illegal_00003023 : decode 0x00003023 = .error (.funct3 0x23 3) := by decide
theorem test_illegal_00002063 : decode 0x00002063 = .error (.funct3 0x63 2) := by decide
theorem test_illegal_00001067 : decode 0x00001067 = .error (.funct3 0x67 1) := by decide
theorem test_illegal_40001033 : decode 0x40001033 = .error (.funct7 0x33 1 0x20) := by decide
theorem test_illegal_04000033 : decode 0x04000033 = .error (.funct7 0x33 0 2) := by decide
theorem test_illegal_0000200f : decode 0x0000200f = .error (.funct3 0x0F 2) := by decide
theorem test_illegal_0200100f : decode 0x0200100f = .error (.funct7 0x0F 1 1) := by decide
theorem test_illegal_0000002f : decode 0x0000002f = .error (.opcode 0x2F) := by decide
theorem test_illegal_00000053 : decode 0x00000053 = .error (.opcode 0x53) := by decide

/-! ### One step of each instruction -/

/-- The step that runs a word, placed where the state fetches next. -/
def run (s : State) (w : Nat) : StepResult := step (s.withFetchWord 32 w)

/-- A register of the next state, if there is one. -/
def regOf (r : Reg) : StepResult → Option Word
  | .next t => some (t.x r)
  | _ => none

/-- `pc` of the next state, if there is one. -/
def pcOf : StepResult → Option Word
  | .next t => some t.pc
  | _ => none

/-- A byte of memory in the next state. -/
def byteOf (a : Word) : StepResult → Option Byte
  | .next t => t.byte? a
  | _ => none

/-- How the run ends, if this step ends it in a fault. -/
def faultOf : StepResult → Option Fault
  | .fault f => some f
  | _ => none

/-- The reset state (`pc` = 0x100) with `x11` and `x12` set. -/
def ops (a b : Word) : State := (State.reset.setX 11 a).setX 12 b

theorem test_add_1 : regOf 10 (run (ops 0x7fffffff 0x1) 0x00c58533) = some 0x80000000 := by decide
theorem test_add_2 : regOf 10 (run (ops 0xffffffff 0x1) 0x00c58533) = some 0x00000000 := by decide
theorem test_sub_1 : regOf 10 (run (ops 0x0 0x1) 0x40c58533) = some 0xffffffff := by decide
theorem test_sub_2 : regOf 10 (run (ops 0x80000000 0x1) 0x40c58533) = some 0x7fffffff := by decide
theorem test_sll_1 : regOf 10 (run (ops 0x1 0x20) 0x00c59533) = some 0x00000001 := by decide
theorem test_sll_2 : regOf 10 (run (ops 0xffffffff 0x24) 0x00c59533) = some 0xfffffff0 := by decide
theorem test_slt_1 : regOf 10 (run (ops 0xffffffff 0x0) 0x00c5a533) = some 0x00000001 := by decide
theorem test_slt_2 : regOf 10 (run (ops 0x0 0xffffffff) 0x00c5a533) = some 0x00000000 := by decide
theorem test_sltu_1 : regOf 10 (run (ops 0x0 0xffffffff) 0x00c5b533) = some 0x00000001 := by decide
theorem test_sltu_2 : regOf 10 (run (ops 0x5 0x5) 0x00c5b533) = some 0x00000000 := by decide
theorem test_xor_1 : regOf 10 (run (ops 0xff00ff00 0xff00ff0) 0x00c5c533) = some 0xf0f0f0f0 := by decide
theorem test_srl_1 : regOf 10 (run (ops 0x80000000 0x21) 0x00c5d533) = some 0x40000000 := by decide
theorem test_srl_2 : regOf 10 (run (ops 0xffffffff 0x4) 0x00c5d533) = some 0x0fffffff := by decide
theorem test_sra_1 : regOf 10 (run (ops 0x80000000 0x4) 0x40c5d533) = some 0xf8000000 := by decide
theorem test_sra_2 : regOf 10 (run (ops 0xfffffff0 0x22) 0x40c5d533) = some 0xfffffffc := by decide
theorem test_or_1 : regOf 10 (run (ops 0xff00ff00 0xff00ff0) 0x00c5e533) = some 0xfff0fff0 := by decide
theorem test_and_1 : regOf 10 (run (ops 0xff00ff00 0xff00ff0) 0x00c5f533) = some 0x0f000f00 := by decide
theorem test_addi_1 : regOf 10 (run (ops 0x800 0x0) 0x80058513) = some 0x00000000 := by decide
theorem test_addi_2 : regOf 10 (run (ops 0xffffffff 0x0) 0x7ff58513) = some 0x000007fe := by decide
theorem test_slti_1 : regOf 10 (run (ops 0x0 0x0) 0xfff5a513) = some 0x00000000 := by decide
theorem test_slti_2 : regOf 10 (run (ops 0xffffffff 0x0) 0x0005a513) = some 0x00000001 := by decide
theorem test_sltiu_1 : regOf 10 (run (ops 0x0 0x0) 0xfff5b513) = some 0x00000001 := by decide
theorem test_sltiu_2 : regOf 10 (run (ops 0xfffff7ff 0x0) 0x8005b513) = some 0x00000001 := by decide
theorem test_xori_1 : regOf 10 (run (ops 0x12345678 0x0) 0xfff5c513) = some 0xedcba987 := by decide
theorem test_xori_2 : regOf 10 (run (ops 0x12345678 0x0) 0x7ff5c513) = some 0x12345187 := by decide
theorem test_ori_1 : regOf 10 (run (ops 0x12345000 0x0) 0x8005e513) = some 0xfffff800 := by decide
theorem test_ori_2 : regOf 10 (run (ops 0x0 0x0) 0x5555e513) = some 0x00000555 := by decide
theorem test_andi_1 : regOf 10 (run (ops 0x12345678 0x0) 0xf005f513) = some 0x12345600 := by decide
theorem test_andi_2 : regOf 10 (run (ops 0x12345678 0x0) 0x0ff5f513) = some 0x00000078 := by decide
theorem test_slli_1 : regOf 10 (run (ops 0x1 0x0) 0x01f59513) = some 0x80000000 := by decide
theorem test_slli_2 : regOf 10 (run (ops 0x12345678 0x0) 0x00459513) = some 0x23456780 := by decide
theorem test_srli_1 : regOf 10 (run (ops 0xffffffff 0x0) 0x0015d513) = some 0x7fffffff := by decide
theorem test_srli_2 : regOf 10 (run (ops 0x12345678 0x0) 0x0005d513) = some 0x12345678 := by decide
theorem test_srai_1 : regOf 10 (run (ops 0x80000000 0x0) 0x4015d513) = some 0xc0000000 := by decide
theorem test_srai_2 : regOf 10 (run (ops 0x7fffffff 0x0) 0x41f5d513) = some 0x00000000 := by decide
theorem test_lui_1 : regOf 10 (run (ops 0x0 0x0) 0xfffff537) = some 0xfffff000 := by decide
theorem test_auipc_1 : regOf 10 (run (ops 0x0 0x0) 0x00001517) = some 0x00001100 := by decide
theorem test_auipc_2 : regOf 10 (run (ops 0x0 0x0) 0xfffff517) = some 0xfffff100 := by decide
theorem test_mul_1 : regOf 10 (run (ops 0x7 0xfffffffd) 0x02c58533) = some 0xffffffeb := by decide
theorem test_mul_2 : regOf 10 (run (ops 0x10000 0x10000) 0x02c58533) = some 0x00000000 := by decide
theorem test_mulh_1 : regOf 10 (run (ops 0x80000000 0x7fffffff) 0x02c59533) = some 0xc0000000 := by decide
theorem test_mulh_2 : regOf 10 (run (ops 0x7 0xfffffffd) 0x02c59533) = some 0xffffffff := by decide
theorem test_mulhsu_1 : regOf 10 (run (ops 0x80000000 0xffffffff) 0x02c5a533) = some 0x80000000 := by decide
theorem test_mulhsu_2 : regOf 10 (run (ops 0x2 0x80000000) 0x02c5a533) = some 0x00000001 := by decide
theorem test_mulhu_1 : regOf 10 (run (ops 0xffffffff 0xffffffff) 0x02c5b533) = some 0xfffffffe := by decide
theorem test_mulhu_2 : regOf 10 (run (ops 0x80000000 0xffffffff) 0x02c5b533) = some 0x7fffffff := by decide
theorem test_div_1 : regOf 10 (run (ops 0xfffffff9 0x2) 0x02c5c533) = some 0xfffffffd := by decide
theorem test_div_2 : regOf 10 (run (ops 0x80000000 0xffffffff) 0x02c5c533) = some 0x80000000 := by decide
theorem test_divu_1 : regOf 10 (run (ops 0xfffffff9 0x2) 0x02c5d533) = some 0x7ffffffc := by decide
theorem test_divu_2 : regOf 10 (run (ops 0x7 0x0) 0x02c5d533) = some 0xffffffff := by decide
theorem test_rem_1 : regOf 10 (run (ops 0xfffffff9 0x2) 0x02c5e533) = some 0xffffffff := by decide
theorem test_rem_2 : regOf 10 (run (ops 0x7 0xfffffffe) 0x02c5e533) = some 0x00000001 := by decide
theorem test_remu_1 : regOf 10 (run (ops 0xfffffff9 0xfffffffe) 0x02c5f533) = some 0xfffffff9 := by decide
theorem test_remu_2 : regOf 10 (run (ops 0x7 0x0) 0x02c5f533) = some 0x00000007 := by decide
/-- A write of `x0` is discarded (R21), and `pc` advances. -/
theorem test_add_to_x0 : regOf 0 (run (ops 1 2) 0x00C58033) = some 0 ∧ pcOf (run (ops 1 2) 0x00C58033) = some 0x104 := by decide

theorem test_beq_taken : pcOf (run (ops 0x5 0x5) 0x00c58863) = some 0x110 := by decide
theorem test_beq_notTaken : pcOf (run (ops 0x5 0x6) 0x00c58863) = some 0x104 := by decide
theorem test_bne_taken : pcOf (run (ops 0x5 0x6) 0x00c59863) = some 0x110 := by decide
theorem test_bne_notTaken : pcOf (run (ops 0x5 0x5) 0x00c59863) = some 0x104 := by decide
theorem test_blt_taken : pcOf (run (ops 0xffffffff 0x0) 0x00c5c863) = some 0x110 := by decide
theorem test_blt_notTaken : pcOf (run (ops 0x5 0x5) 0x00c5c863) = some 0x104 := by decide
theorem test_bge_taken : pcOf (run (ops 0x5 0x5) 0x00c5d863) = some 0x110 := by decide
theorem test_bge_notTaken : pcOf (run (ops 0x80000000 0x0) 0x00c5d863) = some 0x104 := by decide
theorem test_bltu_taken : pcOf (run (ops 0x0 0xffffffff) 0x00c5e863) = some 0x110 := by decide
theorem test_bltu_notTaken : pcOf (run (ops 0xffffffff 0x0) 0x00c5e863) = some 0x104 := by decide
theorem test_bgeu_taken : pcOf (run (ops 0xffffffff 0x0) 0x00c5f863) = some 0x110 := by decide
theorem test_bgeu_notTaken : pcOf (run (ops 0x0 0xffffffff) 0x00c5f863) = some 0x104 := by decide
/-- Decision D3: the branch itself raises. -/
theorem test_branch_misaligned :
    faultOf (run (ops 1 2) 0x00C59163) = some (.trap (.instructionAddressMisaligned 0x102) 0x100) := by decide
theorem test_jal : pcOf (run State.reset 0x008000EF) = some 0x108 ∧ regOf 1 (run State.reset 0x008000EF) = some 0x104 := by
  decide
theorem test_jal_misaligned :
    faultOf (run State.reset 0x002000EF) = some (.trap (.instructionAddressMisaligned 0x102) 0x100) := by decide
/-- The jump goes to the old `x1` (decision D8). -/
theorem test_jalr_same_register :
    pcOf (run (State.reset.setX 1 0x200) 0x000080E7) = some 0x200 ∧
      regOf 1 (run (State.reset.setX 1 0x200) 0x000080E7) = some 0x104 := by decide
theorem test_jalr_misaligned :
    faultOf (run (State.reset.setX 6 0x200) 0x003300E7) = some (.trap (.instructionAddressMisaligned 0x202) 0x100) := by decide

/-- The memory of `95_test_vectors.md` section 2.6, with `x6` and `x7`. -/
def loads : State :=
  { (State.reset.setX 6 0x1000).setX 7 0xAABBCCDD with
    mem := [(0x1000, 0x44), (0x1001, 0x33), (0x1002, 0x22), (0x1003, 0xF1), (0x1004, 0x80), (0x1005, 0x7F),
      (0x1006, 0x00), (0x1007, 0x80)] }

theorem test_lw_1 : regOf 5 (run loads 0x00032283) = some 0xf1223344 := by decide
theorem test_lw_2 : regOf 5 (run loads 0x00432283) = some 0x80007f80 := by decide
theorem test_lh_1 : regOf 5 (run loads 0x00231283) = some 0xfffff122 := by decide
theorem test_lh_2 : regOf 5 (run loads 0x00031283) = some 0x00003344 := by decide
theorem test_lhu_1 : regOf 5 (run loads 0x00235283) = some 0x0000f122 := by decide
theorem test_lb_1 : regOf 5 (run loads 0x00430283) = some 0xffffff80 := by decide
theorem test_lb_2 : regOf 5 (run loads 0x00530283) = some 0x0000007f := by decide
theorem test_lbu_1 : regOf 5 (run loads 0x00334283) = some 0x000000f1 := by decide
theorem test_lhu_misaligned : faultOf (run loads 0x00335283) = some (.trap (.loadAddressMisaligned 0x1003) 0x100) := by decide
theorem test_sw :
    [0x1000, 0x1001, 0x1002, 0x1003].map (fun a => byteOf a (run loads 0x00732023)) =
      [some 0xDD, some 0xCC, some 0xBB, some 0xAA] := by decide
theorem test_sw_misaligned : faultOf (run loads 0x00732123) = some (.trap (.storeAddressMisaligned 0x1002) 0x100) := by decide
theorem test_sh :
    [0x1001, 0x1002, 0x1003, 0x1004].map (fun a => byteOf a (run loads 0x00731123)) =
      [some 0x33, some 0xDD, some 0xCC, some 0x80] := by decide
theorem test_sh_misaligned : faultOf (run loads 0x007310A3) = some (.trap (.storeAddressMisaligned 0x1001) 0x100) := by decide
theorem test_sb :
    [0x1000, 0x1001, 0x1002].map (fun a => byteOf a (run loads 0x007300A3)) = [some 0x44, some 0xDD, some 0x22] := by decide

/-- The control bits and `mepc` of the next state: (`pc`, `mepc`, `mie`, `mpie`). -/
def control : StepResult → Option (Word × Word × Bool × Bool)
  | .next t => some (t.pc, t.mepc, t.mie, t.mpie)
  | _ => none

/-- The reset state with `pc`, `mepc`, `mie`, `mpie` and `TRAP_MODE` set. -/
def sys (pc mepc : Word) (mie mpie : Bool) (mode : TrapMode) : State :=
  { State.reset.inMode mode with pc := pc, mepc := mepc, mie := mie, mpie := mpie }

theorem test_mret_1 : control (run (sys 0x40 0x108 false true .fault) 0x30200073) = some (0x108, 0x108, true, true) := by
  decide
theorem test_mret_2 : control (run (sys 0x40 0x108 true false .fault) 0x30200073) = some (0x108, 0x108, false, true) := by
  decide
theorem test_mret_misaligned :
    faultOf (run (sys 0x40 0x10A true false .fault) 0x30200073) = some (.trap (.instructionAddressMisaligned 0x10A) 0x40) := by decide
theorem test_ecall_fault :
    faultOf (run (sys 0x10C 0 false false .fault) 0x00000073) = some (.trap .environmentCall 0x10C) := by decide
theorem test_ecall_vector :
    control (run (sys 0x10C 0 true false .vector) 0x00000073) = some (0x200, 0x10C, false, true) := by decide

/-- `fetch_dirty` of the next state. -/
def dirtyOf : StepResult → Option AddrSet
  | .next t => some t.fetchDirty
  | _ => none

/-- The reset state after a store to 0x120. -/
def stored : State := { State.reset with fetchDirty := [0x120, 0x121, 0x122, 0x123] }

theorem test_fence : dirtyOf (run stored 0x8330000F) = some stored.fetchDirty ∧ pcOf (run stored 0x8330000F) = some 0x104 := by
  decide
theorem test_fenceI : dirtyOf (run stored 0x0000100F) = some [] ∧ pcOf (run stored 0x0000100F) = some 0x104 := by decide
/-- Program P7's variant: the fetch of a stored byte (R56 step 4). -/
theorem test_staleFetch : faultOf (step { stored with pc := 0x120 }) = some (.trap (.staleFetch 0x120) 0x120) := by decide
/-- Program P8's variant: the interrupt is taken before the fetch. -/
theorem test_interrupt :
    faultOf (step { State.reset with pc := 0x10C, mie := true, irq := [true] }) = some (.trap .interrupt 0x10C) := by decide
theorem test_illegal :
    faultOf (run State.reset 0x00100073) = some (.trap (.illegalInstruction 0x00100073) 0x100) := by decide


/-! ### Witnesses: states and operands that meet the hypotheses of the obligations -/

/-- Three regions: RAM for everything at 0 to 0xFFF, RAM that admits no fetch at 0x1000 to 0x1FFF, a device at 0x2000 to
0x20FF; nothing else is admitted. -/
def mapped : Config where
  memMap := [{ base := 0, size := 0x1000, kind := .ram, read := true, write := true, fetch := true },
    { base := 0x1000, size := 0x1000, kind := .ram, read := true, write := true, fetch := false },
    { base := 0x2000, size := 0x100, kind := .device, read := true, write := true, fetch := true }]
  resetPc := 0x100
  trapMode := .fault
  trapVector := 0x200

/-- The reset state under that map, at `pc`. -/
def at_ (pc : Word) : State := { State.reset with cfg := mapped, pc := pc }

/-- The reset state with a word placed at `pc`. -/
def placed (w : Nat) : State := State.reset.withFetchWord 32 w

/-- A placed word is fetched: the states below meet `Fetches`. -/
theorem witness_fetches_add : NoInterrupt (placed 0x002081b3) ∧ Fetches (placed 0x002081b3) 0x002081b3 :=
  ⟨.inl (by decide), by decide, by unfold Admitted; decide, by unfold Ordinary; decide, by decide, by decide⟩

theorem witness_fetches_ecall : NoInterrupt (placed 0x00000073) ∧ Fetches (placed 0x00000073) 0x00000073 ∧
    (placed 0x00000073).cfg.trapMode = .fault :=
  ⟨.inl (by decide), ⟨by decide, by unfold Admitted; decide, by unfold Ordinary; decide, by decide, by decide⟩, by decide⟩

theorem witness_fetches_spin : Fetches (placed 0x0000006f) 0x0000006f ∧ (placed 0x0000006f).irq = [] :=
  ⟨⟨by decide, by unfold Admitted; decide, by unfold Ordinary; decide, by decide, by decide⟩, by decide⟩

/-- UndefinedEncodingRaisesIllegalInstruction. -/
theorem witness_undefined_encoding : NoInterrupt (placed 0) ∧ Fetches (placed 0) 0 ∧
    ∀ j : Instr, (0 : Word) &&& j.row.mask ≠ j.row.pattern :=
  ⟨.inl (by decide), ⟨by decide, by unfold Admitted; decide, by unfold Ordinary; decide, by decide, by decide⟩,
    fun j => by cases j <;> simp [Instr.row]⟩

/-- DecodeOfEncode, EncodeOfDecode, WordIsInstructionExactlyWhenItsRowMatches: distances at the ends of their ranges. -/
theorem witness_wf : (Instr.jal 31 0x0FFFFE).wf = true ∧ (Instr.jal 0 0x100000).wf = true ∧
    (Instr.beq 31 0 0xFFE).wf = true ∧ (Instr.bgeu 0 31 0x1000).wf = true ∧ (Instr.fence 0x1FFFF 0x1F).wf = true ∧
    decode 0xffffffef = .ok (.jal 31 0x1FFFFE) ∧ (0xffffffef : Word) &&& (Instr.jal 0 0).row.mask = (Instr.jal 0 0).row.pattern := by
  decide

/-- StepRunsTheDecodedInstruction. -/
theorem witness_step_runs : decode 0x002081b3 = .ok (.add 3 1 2) := by decide

/-- FetchChecksInOrder, one clause after the other: an interrupt; a `pc` one past and one before a multiple of 4; the first
word that admits no fetch; the last that does, with a stale byte at its end; a fetch. -/
theorem witness_fetch_checks :
    (({ at_ 0x100 with mie := true, irq := [true] } : State).irqPending = true) ∧
    (NoInterrupt (at_ 0x101) ∧ (at_ 0x101).pc.toNat % 4 ≠ 0) ∧ (NoInterrupt (at_ 0x103) ∧ (at_ 0x103).pc.toNat % 4 ≠ 0) ∧
    (NoInterrupt (at_ 0x1000) ∧ (at_ 0x1000).pc.toNat % 4 = 0 ∧ ¬ Admitted (at_ 0x1000) .fetch (at_ 0x1000).pc 4) ∧
    (Admitted (at_ 0xFFC) .fetch (at_ 0xFFC).pc 4 ∧
      ∃ j, j < 4 ∧ ((at_ 0xFFC).pc + BitVec.ofNat 32 j).toNat ∈ ({ at_ 0xFFC with fetchDirty := [0xFFF] } : State).fetchDirty) := by
  unfold NoInterrupt Admitted
  exact ⟨by decide, by decide, by decide, by decide, by decide, 3, by decide⟩

theorem witness_fetch_bytes : Fetches (placed 0x002081b3) ((0x00 : Byte) ++ (0x20 : Byte) ++ (0x81 : Byte) ++ (0xb3 : Byte)) :=
  witness_fetches_add.2

/-- FetchOfDeviceOrUnloadedBytesIsRefused: a device's first word, and a word of RAM that nothing has written. -/
theorem witness_fetch_refused :
    (NoInterrupt (at_ 0x2000) ∧ Admitted (at_ 0x2000) .fetch 0x2000 4 ∧ ¬ Ordinary (at_ 0x2000) 0x2000 4) ∧
    (NoInterrupt (at_ 0x100) ∧ Admitted (at_ 0x100) .fetch 0x100 4 ∧ Ordinary (at_ 0x100) 0x100 4 ∧
      (at_ 0x100).byte? 0x100 = none ∧ (at_ 0x100).fetchDirty = []) := by
  unfold NoInterrupt Admitted Ordinary
  decide

/-- InterruptIsTakenOnlyWhenEnabled: `mie` set and a request; `mie` clear; an `mret` that sets `mie`. -/
theorem witness_interrupt :
    (({ State.reset with mie := true, irq := [true] } : State).irqPending = true) ∧ State.reset.mie = false ∧
    control (run (sys 0x40 0x108 false true .fault) 0x30200073) = some (0x108, 0x108, true, true) := by decide

/-- The reset state with a word placed has the invariant: StepKeepsTheInvariant, with a step that answers. -/
theorem witness_invariant : (placed 0x002081b3).Inv ∧ pcOf (step (placed 0x002081b3)) = some 0x104 :=
  ⟨⟨by decide, by decide, by decide, by decide, by decide, by unfold trapVectorAligned; decide⟩, by decide⟩

/-- A state under `TRAP_MODE = vector` has the invariant too, and its step enters the trap. -/
theorem witness_invariant_vector : (State.inMode (placed 0x00000073) .vector).Inv ∧
    pcOf (step (State.inMode (placed 0x00000073) .vector)) = some 0x200 :=
  ⟨⟨by decide, by decide, by decide, by decide, by decide, by unfold trapVectorAligned; decide⟩, by decide⟩

/-- LaunchStateIsAsTheTableSays: an image of two bytes at the ends of memory, an aligned `RESET_PC`, each trap mode. -/
theorem witness_launch :
    (([(0, 0x13), (4294967295, 0x7F)] : List Host.Cell).map Prod.fst).Nodup ∧
    (∀ c ∈ ([(0, 0x13), (4294967295, 0x7F)] : List Host.Cell), c.1 < 4294967296) ∧
    (∀ c ∈ ([(0, 0x13), (4294967295, 0x7F)] : List Host.Cell), c.1 ≠ (1 : Word).toNat) ∧
    mapped.resetPc.toNat % 4 = 0 ∧ trapVectorAligned mapped ∧ trapVectorAligned { mapped with trapMode := .vector } := by
  unfold trapVectorAligned
  decide

/-- StepKeepsTheParameters, EveryInstructionAdvancesPc, GeneralRegistersChangeOnlyAtRd: an instruction that gives a next
state under `TRAP_MODE = fault`. -/
theorem witness_next : State.reset.cfg.trapMode = .fault ∧ pcOf (exec (.add 3 1 2) State.reset) = some 0x104 ∧
    (Instr.add 3 1 2).rd? ≠ some 2 ∧ pcOf (step (placed 0x002081b3)) = some 0x104 := by decide

/-- RegistersNotNamedDoNotMatter: the destination, of an instruction that completes and of one that enters the trap (a
misaligned target under `TRAP_MODE = vector`); a register not named at all; `x0`. -/
theorem witness_not_named : (3 : Reg) ∉ (Instr.add 3 1 2).sources ∧ (Instr.add 3 1 2).rd? = some 3 ∧
    pcOf (exec (.add 3 1 2) State.reset) = some 0x104 ∧ (3 : Reg) ∉ (Instr.jal 3 2).sources ∧
    (Instr.jal 3 2).rd? = some 3 ∧ control (exec (.jal 3 2) (sys 0x10C 0 true false .vector)) = some (0x200, 0x10C, false, true) ∧
    (31 : Reg) ∉ (Instr.sw 1 2 0).sources ∧ (Instr.sw 1 2 0).rd? ≠ some 31 ∧ (0 : Reg) ∉ Instr.mret.sources := by decide

/-- ControlRegistersChangeOnlyByMretAndTrapEntry: an instruction that is no `mret`, in each mode. -/
theorem witness_control : (Instr.ecall ≠ .mret) ∧ control (exec .ecall (sys 0x10C 0 true false .vector)) = some (0x200, 0x10C, false, true) ∧
    control (exec (.add 3 1 2) (sys 0x10C 0 true false .fault)) = some (0x110, 0, true, false) ∧
    (placed 0x002081b3).cfg.trapMode = .fault := by decide

/-- MemoryChangesOnlyAtTheStoredBytes: an instruction that stores and one that does not. -/
theorem witness_memory : (Instr.storesTo loads (.sw 7 6 0) = some (0x1000, 4)) ∧ pcOf (exec (.sw 7 6 0) loads) = some 0x104 ∧
    (∀ k, k < 4 → (0x1004 : Word) ≠ 0x1000 + BitVec.ofNat 32 k) ∧ (∀ k, k < 4 → (0xFFF : Word) ≠ 0x1000 + BitVec.ofNat 32 k) ∧
    Instr.storesTo loads (.lw 5 6 0) = none ∧ pcOf (exec (.lw 5 6 0) loads) = some 0x104 := by decide

/-- ExceptionsArePrecise, OnlyTheListedExceptionsAreRaised: an instruction and a step that raise, a fetch that raises, a
stale fetch, and an instruction that raises nothing. -/
theorem witness_precise : exec .ecall State.reset = .fault (.trap .environmentCall 0x100) ∧
    step (placed 0x00000073) = .fault (.trap .environmentCall 0x100) ∧
    step (at_ 0x1000) = .fault (.trap (.instructionAccessFault 0x1000) 0x1000) ∧
    step { stored with pc := 0x120 } = .fault (.trap (.staleFetch 0x120) 0x120) ∧
    pcOf (exec (.add 3 1 2) State.reset) = some 0x104 ∧ pcOf (step (placed 0x002081b3)) = some 0x104 :=
  ⟨rfl, rfl, rfl, rfl, rfl, rfl⟩

/-- TrapEntryThenMretRestores. -/
theorem witness_entry : (sys 0x10C 0 true false .vector).cfg.trapMode = .vector ∧
    (sys 0x10C 0 true false .vector).pc.toNat % 4 = 0 ∧
    control ((sys 0x10C 0 true false .vector).raise .environmentCall) = some (0x200, 0x10C, false, true) := by decide

/-- LoadImmediateExpansion: small constants at both ends of the range, and one outside. -/
theorem witness_load_immediate : (5 : Reg) ≠ 0 ∧ signed 0xFFFFF800 = -2048 ∧ signed 0x7FF = 2047 ∧
    (0x12346000 : Word).extractLsb' 0 12 = 0 ∧ signed 0x12345FFF = 305422335 := by decide

/-- LoadAddressExpansion: a distance with bit 11 set. -/
theorem witness_load_address : (6 : Reg) ≠ 0 ∧ (0x800 : Word) = 0x900 - State.reset.pc := by decide

/-- DivisionResults, DivisionLaws: a zero divisor, the overflow, and operands outside both corners. -/
theorem witness_division : (10 : Reg) ≠ 0 ∧ (ops 7 0).x 12 = 0 ∧
    ((ops 0x80000000 0xFFFFFFFF).x 11 = 0x80000000 ∧ (ops 0x80000000 0xFFFFFFFF).x 12 = 0xFFFFFFFF) ∧
    ((ops 0x80000000 1).x 12 ≠ 0 ∧ ¬ ((ops 0x80000000 1).x 11 = 0x80000000 ∧ (ops 0x80000000 1).x 12 = 0xFFFFFFFF)) ∧
    ((ops 7 0xFFFFFFFF).x 12 ≠ 0 ∧ ¬ ((ops 7 0xFFFFFFFF).x 11 = 0x80000000 ∧ (ops 7 0xFFFFFFFF).x 12 = 0xFFFFFFFF)) := by
  decide

/-- The target of a branch or `jal` at the reset `pc` of 0x100. -/
def target {n : Nat} (dist : BitVec n) : Word := trunc32 (unsigned State.reset.pc + dist.toInt)

/-- EqualityBranches, SignedBranches, UnsignedBranches, JumpAndLink: an aligned target forward, at distance 0 and at the
largest distance back; a misaligned one at the distances 2 and -2. -/
theorem witness_targets : (target (16 : BitVec 13)).toNat % 4 = 0 ∧ (target (0 : BitVec 13)).toNat % 4 = 0 ∧
    (target (0x1000 : BitVec 13)).toNat % 4 = 0 ∧ (target (2 : BitVec 13)).toNat % 4 ≠ 0 ∧
    (target (0x1FFE : BitVec 13)).toNat % 4 ≠ 0 ∧ (target (0x100000 : BitVec 21)).toNat % 4 = 0 ∧
    (target (0x0FFFFE : BitVec 21)).toNat % 4 ≠ 0 := by decide

/-- The conditions of the six branches, each true and each false. -/
theorem witness_conditions :
    ((ops 5 5).x 11 = (ops 5 5).x 12 ∧ ¬ (ops 5 6).x 11 = (ops 5 6).x 12) ∧
    (signed ((ops 0xFFFFFFFF 0).x 11) < signed ((ops 0xFFFFFFFF 0).x 12) ∧ ¬ signed ((ops 5 5).x 11) < signed ((ops 5 5).x 12)) ∧
    (unsigned ((ops 0 0xFFFFFFFF).x 11) < unsigned ((ops 0 0xFFFFFFFF).x 12) ∧
      ¬ unsigned ((ops 5 5).x 11) < unsigned ((ops 5 5).x 12)) := by decide

/-- IndirectJumpAndLink: a sum whose bit 0 is cleared to an aligned target, and one to a misaligned target. -/
theorem witness_jalr :
    (trunc32 (unsigned (trunc32 (unsigned 0x201 + (0 : BitVec 12).toInt)) / 2 * 2)).toNat % 4 = 0 ∧
    (trunc32 (unsigned (trunc32 (unsigned 0 + (0xFFF : BitVec 12).toInt)) / 2 * 2)).toNat % 4 ≠ 0 := by decide

/-- MretReturnsFromTheTrap, EcallRaisesEnvironmentCall: `mepc` aligned and misaligned, each trap mode. -/
theorem witness_system : (sys 0x40 0x108 false true .fault).mepc.toNat % 4 = 0 ∧
    (sys 0x40 0x10A false true .fault).mepc.toNat % 4 ≠ 0 ∧ (sys 0x40 0x10A false true .fault).cfg.trapMode = .fault ∧
    (sys 0x40 0x10A false true .vector).cfg.trapMode = .vector := by decide

/-- FenceChangesNothing, FenceIEmptiesFetchDirty: words of the two rows, with bits outside the fields set. -/
theorem witness_fence : (0x8330000F : Word) &&& 0x0000707f = 0x0000000f ∧ (0x01FF9F8F : Word) &&& 0xfe00707f = 0x0000100f := by
  decide

/-- ByteLoads, HalfWordLoads, WordLoad: the last byte, half-word and word before the region ends; misaligned ones; ones in no
region, at its first address and at the top of memory. -/
theorem witness_loads :
    (Admitted (at_ 0x100) .read 0x1FFF 1 ∧ Ordinary (at_ 0x100) 0x1FFF 1) ∧
    (Admitted (at_ 0x100) .read 0x1FFE 2 ∧ Ordinary (at_ 0x100) 0x1FFE 2 ∧ (0x1FFE : Word).toNat % 2 = 0) ∧
    (Admitted (at_ 0x100) .read 0x1FFC 4 ∧ Ordinary (at_ 0x100) 0x1FFC 4 ∧ (0x1FFC : Word).toNat % 4 = 0) ∧
    ((0x1FFF : Word).toNat % 2 ≠ 0 ∧ (0x1FFE : Word).toNat % 4 ≠ 0 ∧ (0x1FFD : Word).toNat % 4 ≠ 0) ∧
    (¬ Admitted (at_ 0x100) .read 0x2100 1 ∧ ¬ Admitted (at_ 0x100) .read 0xFFFFFFFE 2 ∧ (0xFFFFFFFE : Word).toNat % 2 = 0 ∧
      ¬ Admitted (at_ 0x100) .read 0xFFFFFFFC 4 ∧ (0xFFFFFFFC : Word).toNat % 4 = 0) := by
  unfold Admitted Ordinary
  decide

/-- ByteStore, HalfWordStore, WordStore: the same addresses. -/
theorem witness_stores :
    (Admitted (at_ 0x100) .write 0x1FFF 1 ∧ Admitted (at_ 0x100) .write 0x1FFE 2 ∧ Admitted (at_ 0x100) .write 0x1FFC 4) ∧
    (¬ Admitted (at_ 0x100) .write 0x2100 1 ∧ ¬ Admitted (at_ 0x100) .write 0xFFFFFFFE 2 ∧
      ¬ Admitted (at_ 0x100) .write 0xFFFFFFFC 4) := by
  unfold Admitted
  decide

/-- The effective addresses of the two witnesses above are reached: `x6` and the immediate 0. -/
theorem witness_addresses :
    trunc32 (unsigned (((at_ 0x100).setX 6 0x1FFC).x 6) + (0 : BitVec 12).toInt) = 0x1FFC ∧
    trunc32 (unsigned (((at_ 0x100).setX 6 0xFFFFFFFF).x 6) + (0xFFF : BitVec 12).toInt) = 0xFFFFFFFE := by decide

/-- DeviceAccessIsRefused: the first and the last bytes of the device. -/
theorem witness_device :
    (∀ k ∈ [AccessKind.read, AccessKind.write], Admitted (at_ 0x100) k 0x20FF 1 ∧ Admitted (at_ 0x100) k 0x20FE 2 ∧
      Admitted (at_ 0x100) k 0x20FC 4 ∧ Admitted (at_ 0x100) k 0x2000 4) ∧
    (¬ Ordinary (at_ 0x100) 0x20FF 1 ∧ ¬ Ordinary (at_ 0x100) 0x20FE 2 ∧ ¬ Ordinary (at_ 0x100) 0x20FC 4 ∧
      ¬ Ordinary (at_ 0x100) 0x2000 4) ∧ ((at_ 0x100).setX 6 0x20FC).effAddr 6 0 = 0x20FC := by
  unfold Admitted Ordinary
  decide

/-- LoadsAfterAWordStoreSeeItsBytes: the store is done, and the later addresses are reached. -/
theorem witness_loads_after_store : loads.cfg.trapMode = .fault ∧ pcOf (exec (.sw 7 6 0) loads) = some 0x104 ∧ (5 : Reg) ≠ 0 ∧
    Admitted loads .read (loads.effAddr 6 0) 4 ∧ loads.effAddr 6 3 = loads.effAddr 6 0 + BitVec.ofNat 32 3 ∧
    loads.effAddr 6 2 = loads.effAddr 6 0 + 2 := by
  unfold Admitted
  decide

/-- StoreToCodeNeedsFenceI: the store and the `fence.i` are done, and the stored word may be fetched. -/
theorem witness_store_to_code : loads.cfg.trapMode = .fault ∧ pcOf (exec (.sw 7 6 0) loads) = some 0x104 ∧
    Admitted loads .fetch (loads.effAddr 6 0) 4 ∧ NoInterrupt loads ∧ pcOf (exec (.fenceI 0 0) loads) = some 0x104 ∧
    decode (loads.setX 7 0x02A00513 |>.x 7) = .ok (.addi 10 0 42) := by
  unfold Admitted NoInterrupt
  decide

/-- WithFetchWordIsRunNext: a word that decodes, placed in a state whose own map would not admit the fetch. -/
theorem witness_withFetchWord : decode (BitVec.ofNat 32 0x002081b3) = .ok (.add 3 1 2) ∧
    pcOf (step ((at_ 0xFFFFFFFF).withFetchWord 32 0x002081b3)) = some 0 := by decide

end Sys2Proof.Tests
end

section
/-! The decoder and the opcode table (`30_encoding.md` R96 to R98): a word decodes to an instruction exactly when it passes
the mask test of the instruction's row and the operands are the word's fields. -/

namespace Sys2Proof

/-- The instruction of the same row whose operands are the fields of `w` (R81 to R95). -/
def Instr.withFields : Instr → Word → Instr
  | .lui .., w => .lui (rdField w) (immU w)
  | .auipc .., w => .auipc (rdField w) (immU w)
  | .jal .., w => .jal (rdField w) (immJ w)
  | .jalr .., w => .jalr (rdField w) (rs1Field w) (immI w)
  | .beq .., w => .beq (rs1Field w) (rs2Field w) (immB w)
  | .bne .., w => .bne (rs1Field w) (rs2Field w) (immB w)
  | .blt .., w => .blt (rs1Field w) (rs2Field w) (immB w)
  | .bge .., w => .bge (rs1Field w) (rs2Field w) (immB w)
  | .bltu .., w => .bltu (rs1Field w) (rs2Field w) (immB w)
  | .bgeu .., w => .bgeu (rs1Field w) (rs2Field w) (immB w)
  | .lb .., w => .lb (rdField w) (rs1Field w) (immI w)
  | .lh .., w => .lh (rdField w) (rs1Field w) (immI w)
  | .lw .., w => .lw (rdField w) (rs1Field w) (immI w)
  | .lbu .., w => .lbu (rdField w) (rs1Field w) (immI w)
  | .lhu .., w => .lhu (rdField w) (rs1Field w) (immI w)
  | .sb .., w => .sb (rs2Field w) (rs1Field w) (immS w)
  | .sh .., w => .sh (rs2Field w) (rs1Field w) (immS w)
  | .sw .., w => .sw (rs2Field w) (rs1Field w) (immS w)
  | .addi .., w => .addi (rdField w) (rs1Field w) (immI w)
  | .slti .., w => .slti (rdField w) (rs1Field w) (immI w)
  | .sltiu .., w => .sltiu (rdField w) (rs1Field w) (immI w)
  | .xori .., w => .xori (rdField w) (rs1Field w) (immI w)
  | .ori .., w => .ori (rdField w) (rs1Field w) (immI w)
  | .andi .., w => .andi (rdField w) (rs1Field w) (immI w)
  | .slli .., w => .slli (rdField w) (rs1Field w) (shamtField w)
  | .srli .., w => .srli (rdField w) (rs1Field w) (shamtField w)
  | .srai .., w => .srai (rdField w) (rs1Field w) (shamtField w)
  | .add .., w => .add (rdField w) (rs1Field w) (rs2Field w)
  | .sub .., w => .sub (rdField w) (rs1Field w) (rs2Field w)
  | .sll .., w => .sll (rdField w) (rs1Field w) (rs2Field w)
  | .slt .., w => .slt (rdField w) (rs1Field w) (rs2Field w)
  | .sltu .., w => .sltu (rdField w) (rs1Field w) (rs2Field w)
  | .xor .., w => .xor (rdField w) (rs1Field w) (rs2Field w)
  | .srl .., w => .srl (rdField w) (rs1Field w) (rs2Field w)
  | .sra .., w => .sra (rdField w) (rs1Field w) (rs2Field w)
  | .or .., w => .or (rdField w) (rs1Field w) (rs2Field w)
  | .and .., w => .and (rdField w) (rs1Field w) (rs2Field w)
  | .mul .., w => .mul (rdField w) (rs1Field w) (rs2Field w)
  | .mulh .., w => .mulh (rdField w) (rs1Field w) (rs2Field w)
  | .mulhsu .., w => .mulhsu (rdField w) (rs1Field w) (rs2Field w)
  | .mulhu .., w => .mulhu (rdField w) (rs1Field w) (rs2Field w)
  | .div .., w => .div (rdField w) (rs1Field w) (rs2Field w)
  | .divu .., w => .divu (rdField w) (rs1Field w) (rs2Field w)
  | .rem .., w => .rem (rdField w) (rs1Field w) (rs2Field w)
  | .remu .., w => .remu (rdField w) (rs1Field w) (rs2Field w)
  | .mret, _ => .mret
  | .ecall, _ => .ecall
  | .fence .., w => .fence (w.extractLsb' 15 17) (w.extractLsb' 7 5)
  | .fenceI .., w => .fenceI (w.extractLsb' 15 10) (w.extractLsb' 7 5)

@[simp] theorem row_withFields (i : Instr) (w : Word) : (i.withFields w).row = i.row := by cases i <;> rfl

/-- The word passes the mask test of the instruction's row (R97). -/
def Instr.RowMatches (i : Instr) (w : Word) : Prop := w &&& i.row.mask = i.row.pattern

/-! ### The mask tests as equations of fields, the row's values read off its pattern -/

/-- No row's match value has a bit outside the row's mask. -/
theorem pattern_and_mask (i : Instr) : i.row.pattern &&& i.row.mask = i.row.pattern := by
  cases i <;> dsimp only [Instr.row] <;> decide

/-- The `n` bits of a row's match value from bit `s` up, through its number: `extractLsb'` of a row's literal does not
evaluate in the kernel in reasonable time. -/
@[simp] def Instr.patternField (i : Instr) (s n : Nat) : BitVec n :=
  BitVec.ofNat n (i.row.pattern.toNat / 2 ^ s % 2 ^ n)

section
variable {w : Word} {i : Instr}

theorem patternField_eq (s n : Nat) : i.row.pattern.extractLsb' s n = i.patternField s n :=
  extract_eq_of_toNat _ _ _ (by simp)

/-- The rows that fix the opcode only. -/
theorem rowMatches_iff_opcode (hmask : i.row.mask = 0x0000007f) :
    i.RowMatches w ↔ opcodeField w = i.patternField 0 7 := by
  have hpattern := pattern_and_mask i
  rw [hmask, (mask_opcode_iff _ _).2 rfl] at hpattern
  rw [Instr.RowMatches, hmask, ← patternField_eq]
  conv_lhs => rw [← hpattern]
  exact mask_opcode_iff w _

/-- The rows that fix the opcode and `funct3`. -/
theorem rowMatches_iff_funct3 (hmask : i.row.mask = 0x0000707f) :
    i.RowMatches w ↔ opcodeField w = i.patternField 0 7 ∧ funct3Field w = i.patternField 12 3 := by
  have hpattern := pattern_and_mask i
  rw [hmask, (mask_funct3_iff _ _ _).2 ⟨rfl, rfl⟩] at hpattern
  rw [Instr.RowMatches, hmask, ← patternField_eq, ← patternField_eq]
  conv_lhs => rw [← hpattern]
  exact mask_funct3_iff w _ _

/-- The rows that fix the opcode, `funct3` and `funct7`. -/
theorem rowMatches_iff_funct7 (hmask : i.row.mask = 0xfe00707f) :
    i.RowMatches w ↔
      opcodeField w = i.patternField 0 7 ∧ funct3Field w = i.patternField 12 3 ∧
        funct7Field w = i.patternField 25 7 := by
  have hpattern := pattern_and_mask i
  rw [hmask, (mask_funct7_iff _ _ _ _).2 ⟨rfl, rfl, rfl⟩] at hpattern
  rw [Instr.RowMatches, hmask, ← patternField_eq, ← patternField_eq, ← patternField_eq]
  conv_lhs => rw [← hpattern]
  exact mask_funct7_iff w _ _ _

/-- The rows that fix the whole word. -/
theorem rowMatches_iff_word (hmask : i.row.mask = 0xffffffff) : i.RowMatches w ↔ w = i.row.pattern := by
  rw [Instr.RowMatches, hmask, show (0xffffffff : Word) = BitVec.allOnes 32 from rfl, BitVec.and_allOnes]

end

/-! ### A word that passes the mask test of a row decodes to the instruction of that row -/

theorem decode_of_rowMatches {w : Word} (j : Instr) (h : j.RowMatches w) : decode w = .ok (j.withFields w) := by
  cases j
  case lui | auipc | jal =>
    have hop := (rowMatches_iff_opcode rfl).1 h
    simp [decode, hop, Instr.withFields, Instr.row]
  case jalr | beq | bne | blt | bge | bltu | bgeu | lb | lh | lw | lbu | lhu | sb | sh | sw | addi | slti | sltiu | xori |
      ori | andi | fence =>
    obtain ⟨hop, h3⟩ := (rowMatches_iff_funct3 rfl).1 h
    simp [decode, decodeBranch, decodeLoad, decodeStore, decodeOpImm, decodeMiscMem, hop, h3, Instr.withFields,
      Instr.row]
  case mret | ecall =>
    rw [(rowMatches_iff_word rfl).1 h]
    decide
  all_goals
    obtain ⟨hop, h3, h7⟩ := (rowMatches_iff_funct7 rfl).1 h
    simp [decode, decodeOpImm, decodeOp, decodeOpBase, decodeOpMulDiv, decodeMiscMem, hop, h3, h7, Instr.withFields,
      Instr.row]

/-! ### A word that decodes passes the mask test of the row of its instruction, opcode by opcode -/

theorem bitVec3_cases (f : BitVec 3) :
    f = 0#3 ∨ f = 1#3 ∨ f = 2#3 ∨ f = 3#3 ∨ f = 4#3 ∨ f = 5#3 ∨ f = 6#3 ∨ f = 7#3 := by
  revert f
  decide

section
variable {w : Word} {i : Instr}

theorem rowMatches_of_decodeBranch (hop : opcodeField w = 0b1100011#7) (h : decodeBranch w = .ok i) : i.RowMatches w := by
  unfold decodeBranch at h
  split at h <;> cases h <;> exact (rowMatches_iff_funct3 rfl).2 (by simp [Instr.row, *])

theorem rowMatches_of_decodeLoad (hop : opcodeField w = 0b0000011#7) (h : decodeLoad w = .ok i) : i.RowMatches w := by
  unfold decodeLoad at h
  split at h <;> cases h <;> exact (rowMatches_iff_funct3 rfl).2 (by simp [Instr.row, *])

theorem rowMatches_of_decodeStore (hop : opcodeField w = 0b0100011#7) (h : decodeStore w = .ok i) : i.RowMatches w := by
  unfold decodeStore at h
  split at h <;> cases h <;> exact (rowMatches_iff_funct3 rfl).2 (by simp [Instr.row, *])

theorem rowMatches_of_decodeOpImm (hop : opcodeField w = 0b0010011#7) (h : decodeOpImm w = .ok i) : i.RowMatches w := by
  unfold decodeOpImm at h
  split at h
  case h_7 h3 =>
    split at h <;> cases h
    exact (rowMatches_iff_funct7 rfl).2 (by simp [Instr.row, *])
  case h_8 =>
    have h3 : funct3Field w = 0b101#3 := by
      have hall := bitVec3_cases (funct3Field w)
      tauto
    split at h <;> cases h <;> exact (rowMatches_iff_funct7 rfl).2 (by simp [Instr.row, *])
  all_goals
    cases h
    exact (rowMatches_iff_funct3 rfl).2 (by simp [Instr.row, *])

theorem rowMatches_decodeOpBase (hop : opcodeField w = 0b0110011#7) (h7 : funct7Field w = 0b0000000#7) :
    (decodeOpBase w).RowMatches w := by
  rcases bitVec3_cases (funct3Field w) with h3 | h3 | h3 | h3 | h3 | h3 | h3 | h3 <;>
    simp only [decodeOpBase, h3] <;> exact (rowMatches_iff_funct7 rfl).2 (by simp [Instr.row, hop, h3, h7])

theorem rowMatches_decodeOpMulDiv (hop : opcodeField w = 0b0110011#7) (h7 : funct7Field w = 0b0000001#7) :
    (decodeOpMulDiv w).RowMatches w := by
  rcases bitVec3_cases (funct3Field w) with h3 | h3 | h3 | h3 | h3 | h3 | h3 | h3 <;>
    simp only [decodeOpMulDiv, h3] <;> exact (rowMatches_iff_funct7 rfl).2 (by simp [Instr.row, hop, h3, h7])

theorem rowMatches_of_decodeOp (hop : opcodeField w = 0b0110011#7) (h : decodeOp w = .ok i) : i.RowMatches w := by
  unfold decodeOp at h
  split at h
  next h7 => cases h; exact rowMatches_decodeOpBase hop h7
  next h7 => cases h; exact rowMatches_decodeOpMulDiv hop h7
  next h7 => split at h <;> cases h <;> exact (rowMatches_iff_funct7 rfl).2 (by simp [Instr.row, *])
  next => cases h

theorem rowMatches_of_decodeMiscMem (hop : opcodeField w = 0b0001111#7) (h : decodeMiscMem w = .ok i) : i.RowMatches w := by
  unfold decodeMiscMem at h
  split at h
  next h3 => cases h; exact (rowMatches_iff_funct3 rfl).2 (by simp [Instr.row, hop, h3])
  next h3 => split at h <;> cases h; exact (rowMatches_iff_funct7 rfl).2 (by simp [Instr.row, *])
  next => cases h

theorem rowMatches_of_decodeSystem (h : decodeSystem w = .ok i) : i.RowMatches w := by
  unfold decodeSystem at h
  split_ifs at h with hecall hmret <;> cases h
  · exact (rowMatches_iff_word rfl).2 hecall
  · exact (rowMatches_iff_word rfl).2 hmret

theorem rowMatches_of_decode (h : decode w = .ok i) : i.RowMatches w := by
  unfold decode at h
  split at h
  case h_1 hop | h_2 hop | h_3 hop =>
    cases h
    exact (rowMatches_iff_opcode rfl).2 (by simp [Instr.row, hop])
  next hop => split at h <;> cases h; exact (rowMatches_iff_funct3 rfl).2 (by simp [Instr.row, *])
  next hop => exact rowMatches_of_decodeBranch hop h
  next hop => exact rowMatches_of_decodeLoad hop h
  next hop => exact rowMatches_of_decodeStore hop h
  next hop => exact rowMatches_of_decodeOpImm hop h
  next hop => exact rowMatches_of_decodeOp hop h
  next hop => exact rowMatches_of_decodeMiscMem hop h
  next => exact rowMatches_of_decodeSystem h
  next => cases h

end

/-! ### Both directions, and the rows do not overlap -/

/-- R97 for one row. -/
theorem rowMatches_iff_decode (w : Word) (j : Instr) : j.RowMatches w ↔ ∃ i, decode w = .ok i ∧ i.row = j.row := by
  constructor
  · intro hmatch
    exact ⟨j.withFields w, decode_of_rowMatches j hmatch, row_withFields j w⟩
  · rintro ⟨i, hdecode, hrow⟩
    have hmatch := rowMatches_of_decode hdecode
    rwa [Instr.RowMatches, hrow] at hmatch

/-- A word decodes to one instruction, so it passes the test of one row. -/
theorem row_eq_of_rowMatches {w : Word} {j k : Instr} (hj : j.RowMatches w) (hk : k.RowMatches w) : j.row = k.row := by
  obtain ⟨i, hdecode, hrow⟩ := (rowMatches_iff_decode w j).1 hj
  obtain ⟨i', hdecode', hrow'⟩ := (rowMatches_iff_decode w k).1 hk
  obtain rfl : i = i' := Except.ok.inj (hdecode.symm.trans hdecode')
  exact hrow.symm.trans hrow'

end Sys2Proof

open Sys2Proof

/-- Settles O3: a row's test fixes the fields the decoder branches on, and the decoder answers one instruction only. -/
theorem wordIsInstructionExactlyWhenItsRowMatches : Obligations.WordIsInstructionExactlyWhenItsRowMatches :=
  ⟨rowMatches_iff_decode, fun _ _ _ => row_eq_of_rowMatches⟩

end

section
/-! The five immediates as 32-bit constants (`30_encoding.md` R90 to R94): their bits, through their values as numbers, and
the ranges of the signed ones. -/

namespace Sys2Proof.Machine

/-! ### Sign extension and repetition as numbers -/

/-- Sign extension adds 2^32 - 2^n when the top bit, which is `x.toNat / 2^(n-1)`, is 1. -/
theorem toNat_sext {n : Nat} (x : BitVec n) (hpos : 0 < n) (hle : n ≤ 32) :
    (sext x).toNat = x.toNat + x.toNat / 2 ^ (n - 1) * (2 ^ 32 - 2 ^ n) := by
  have hlt := x.isLt
  have hpow : 2 ^ n = 2 * 2 ^ (n - 1) := by rw [← Nat.pow_succ', Nat.succ_eq_add_one, Nat.sub_one_add_one hpos.ne']
  have hwidth : x.toNat % 2 ^ 32 = x.toNat :=
    Nat.mod_eq_of_lt (hlt.trans_le (Nat.pow_le_pow_right (by decide) hle))
  rw [sext, BitVec.toNat_signExtend, BitVec.toNat_setWidth, hwidth, BitVec.msb_eq_decide]
  by_cases htop : 2 ^ (n - 1) ≤ x.toNat
  · have hone : x.toNat / 2 ^ (n - 1) = 1 := Nat.div_eq_of_lt_le (by omega) (by omega)
    simp [htop, hone]
  · have hzero : x.toNat / 2 ^ (n - 1) = 0 := Nat.div_eq_of_lt (by omega)
    simp [htop, hzero]

/-- A bit repeated `k` times is 0 or 2^k - 1. -/
theorem toNat_replicate_bit (b : BitVec 1) (k : Nat) : (b.replicate k).toNat = b.toNat * (2 ^ k - 1) := by
  induction k with
  | zero => simp
  | succ k ih =>
    have hpos := Nat.two_pow_pos k
    rw [BitVec.replicate_succ, BitVec.toNat_cast, toNat_append_mul, ih, ← Nat.mul_add, Nat.one_mul, Nat.pow_succ']
    congr 1
    omega

/-- A field is its upper and its lower part. -/
theorem toNat_extract_split {v s t m n : Nat} (x : BitVec v) (h : t = s + m) :
    (x.extractLsb' s (n + m)).toNat = (x.extractLsb' t n).toNat * 2 ^ m + (x.extractLsb' s m).toNat := by
  rw [← BitVec.extractLsb'_append_extractLsb'_eq_extractLsb' h, toNat_append_mul]

/-! ### The bits of the immediates -/

section
variable (w : Word)

/-- The value of a sign-extended immediate whose top bit is bit 31 of the word, as R90, R91, R92 and R94 have it. -/
theorem toNat_sext_of_top {n : Nat} (x : BitVec n) (hpos : 0 < n) (hle : n ≤ 32)
    (htop : x.toNat / 2 ^ (n - 1) = (w.extractLsb' 31 1).toNat) :
    (sext x).toNat = x.toNat + (w.extractLsb' 31 1).toNat * (2 ^ 32 - 2 ^ n) := by
  rw [toNat_sext x hpos hle, htop]

/-- R90. -/
theorem sext_immI : sext (immI w) = (w.extractLsb' 31 1).replicate 20 ++ w.extractLsb' 20 12 := by
  have hsplit := toNat_extract_split (t := 31) (m := 11) (n := 1) w rfl
  have htop : (immI w).toNat / 2 ^ 11 = (w.extractLsb' 31 1).toNat := by
    rw [immI, hsplit]
    omega
  refine BitVec.eq_of_toNat_eq ?_
  rw [toNat_sext_of_top w _ (by decide) (by decide) htop, immI]
  simp only [toNat_append_mul, toNat_replicate_bit]
  omega

/-- R91. -/
theorem sext_immS :
    sext (immS w) = (w.extractLsb' 31 1).replicate 20 ++ w.extractLsb' 25 7 ++ w.extractLsb' 7 5 := by
  have hsplit := toNat_extract_split (t := 31) (m := 6) (n := 1) w rfl
  have htop : (immS w).toNat / 2 ^ 11 = (w.extractLsb' 31 1).toNat := by
    rw [immS, toNat_append_mul, hsplit]
    omega
  refine BitVec.eq_of_toNat_eq ?_
  rw [toNat_sext_of_top w _ (by decide) (by decide) htop, immS]
  simp only [toNat_append_mul, toNat_replicate_bit]
  omega

/-- R92. -/
theorem sext_immB :
    sext (immB w) = (w.extractLsb' 31 1).replicate 20 ++ w.extractLsb' 7 1 ++ w.extractLsb' 25 6 ++
      w.extractLsb' 8 4 ++ 0#1 := by
  have htop : (immB w).toNat / 2 ^ 12 = (w.extractLsb' 31 1).toNat := by
    simp only [immB, toNat_append_mul]
    omega
  refine BitVec.eq_of_toNat_eq ?_
  rw [toNat_sext_of_top w _ (by decide) (by decide) htop, immB]
  simp only [toNat_append_mul, toNat_replicate_bit]
  omega

/-- R94. -/
theorem sext_immJ :
    sext (immJ w) = (w.extractLsb' 31 1).replicate 12 ++ w.extractLsb' 12 8 ++ w.extractLsb' 20 1 ++
      w.extractLsb' 25 6 ++ w.extractLsb' 21 4 ++ 0#1 := by
  have htop : (immJ w).toNat / 2 ^ 20 = (w.extractLsb' 31 1).toNat := by
    simp only [immJ, toNat_append_mul]
    omega
  have hsplit := toNat_extract_split (t := 25) (m := 4) (n := 6) w rfl
  refine BitVec.eq_of_toNat_eq ?_
  rw [toNat_sext_of_top w _ (by decide) (by decide) htop, immJ]
  simp only [toNat_append_mul, toNat_replicate_bit, hsplit]
  omega

end

/-! ### The ranges of the signed immediates -/

theorem signed_sext {n : Nat} (x : BitVec n) (h : n ≤ 32) : signed (sext x) = x.toInt :=
  BitVec.toInt_signExtend_of_le h

/-- The range of I and S (R90, R91). -/
theorem signed_sext_range12 (imm : BitVec 12) : -2048 ≤ signed (sext imm) ∧ signed (sext imm) ≤ 2047 := by
  rw [signed_sext imm (by decide)]
  have hlow := BitVec.le_toInt imm
  have hhigh := imm.toInt_lt
  omega

/-- A distance is twice the signed value of its bits above bit 0, whence the even bounds of R92 and R94. -/
theorem signed_sext_even_range {n : Nat} (x : BitVec n) (hpos : 0 < n) (hle : n + 1 ≤ 32) :
    -2 ^ n ≤ signed (sext (x ++ 0#1)) ∧ signed (sext (x ++ 0#1)) ≤ 2 ^ n - 2 := by
  rw [signed_sext (x ++ 0#1) hle, BitVec.toInt_append_zero]
  have hlow := BitVec.le_toInt x
  have hhigh := x.toInt_lt
  have hpow : (2 : Int) ^ n = 2 * 2 ^ (n - 1) := by rw [← pow_succ', Nat.sub_one_add_one hpos.ne']
  omega

end Sys2Proof.Machine

open Sys2Proof Sys2Proof.Machine

/-- Settles O4: the bits from the `sext_imm` lemmas, the ranges from the widths and, for B and J, from bit 0. -/
theorem immediatesAreBuiltFromTheirBits : Obligations.ImmediatesAreBuiltFromTheirBits := fun w =>
  ⟨sext_immI w, sext_immS w, sext_immB w, rfl, sext_immJ w, signed_sext_range12 (immI w), signed_sext_range12 (immS w),
    signed_sext_even_range (n := 12) _ (by decide) (by decide), signed_sext_even_range (n := 20) _ (by decide) (by decide)⟩

end

section
/-! Register results (`40_alu_register.md` R120, R131): the words of a row, the frame of a register result, and the model's
word operations as integer operations narrowed to 32 bits. -/

namespace Sys2Proof.Machine

/-! ### What every register-register rule is made of -/

/-- The words of a row decode to its instruction with the fields of the word; the operands of `i` play no part (R97). -/
theorem encodedAs_row (i : Instr) : EncodedAs i.row.mask i.row.pattern i.withFields :=
  fun _ hrow => decode_of_rowMatches i hrow

/-- The frame of a register result (R131, R21). -/
theorem State.writeRd_result (s : State) (rd : Reg) (v : Word) : RegisterResult s rd v (s.writeRd rd v) := by
  refine ⟨(s.setX rd v).advance, rfl, by simp, fun hrd => ?_, State.x_zero _, fun r hr => ?_, ?_, ?_, ?_⟩
  · rw [State.advance_x, State.x_setX_same s hrd]
  · rw [State.advance_x, State.x_setX_other s hr]
  · exact ⟨by simp, by simp⟩
  · exact ⟨by simp, by simp, by simp⟩
  · exact ⟨by simp, by simp⟩

/-- A register-register instruction `i` whose operation has the value `v` on the operands. -/
theorem register_result_of_exec {i : Instr} {f : Word → Word → Word} {s : State} {rd rs1 rs2 : Reg} {v : Word}
    (hi : exec i s = execBinary f rd rs1 rs2 s) (hv : f (s.x rs1) (s.x rs2) = v) : RegisterResult s rd v (exec i s) := by
  rw [hi, ← hv]
  exact s.writeRd_result rd _

/-! ### The operation of each instruction -/

section
variable (rd rs1 rs2 : Reg) (s : State)

theorem exec_add : exec (.add rd rs1 rs2) s = execBinary (· + ·) rd rs1 rs2 s := rfl

theorem exec_sub : exec (.sub rd rs1 rs2) s = execBinary (· - ·) rd rs1 rs2 s := rfl

theorem exec_sll : exec (.sll rd rs1 rs2) s = execBinary (fun a b => a <<< shiftAmount b) rd rs1 rs2 s := rfl

theorem exec_srl : exec (.srl rd rs1 rs2) s = execBinary (fun a b => a >>> shiftAmount b) rd rs1 rs2 s := rfl

theorem exec_sra : exec (.sra rd rs1 rs2) s = execBinary (fun a b => a.sshiftRight (shiftAmount b)) rd rs1 rs2 s := rfl

theorem exec_slt : exec (.slt rd rs1 rs2) s = execBinary (fun a b => truthWord (ltSigned a b)) rd rs1 rs2 s := rfl

theorem exec_sltu : exec (.sltu rd rs1 rs2) s = execBinary (fun a b => truthWord (ltUnsigned a b)) rd rs1 rs2 s := rfl

theorem exec_xor : exec (.xor rd rs1 rs2) s = execBinary (· ^^^ ·) rd rs1 rs2 s := rfl

theorem exec_or : exec (.or rd rs1 rs2) s = execBinary (· ||| ·) rd rs1 rs2 s := rfl

theorem exec_and : exec (.and rd rs1 rs2) s = execBinary (· &&& ·) rd rs1 rs2 s := rfl

end

/-! ### Narrowing an integer (R8) -/

@[simp] theorem trunc32_signed (a : Word) : trunc32 (signed a) = a := BitVec.ofInt_toInt

theorem trunc32_natCast (k : Nat) : trunc32 k = BitVec.ofNat 32 k := BitVec.ofInt_natCast 32 k

@[simp] theorem trunc32_unsigned (a : Word) : trunc32 (unsigned a) = a := by
  rw [unsigned, trunc32_natCast, BitVec.ofNat_toNat, BitVec.setWidth_eq]

theorem trunc32_add (m n : Int) : trunc32 (m + n) = trunc32 m + trunc32 n := BitVec.ofInt_add m n

theorem trunc32_sub (m n : Int) : trunc32 (m - n) = trunc32 m - trunc32 n := by
  rw [sub_eq_add_neg, trunc32_add, BitVec.sub_eq_add_neg]
  exact congrArg (trunc32 m + ·) BitVec.ofInt_neg

theorem trunc32_mul (m n : Int) : trunc32 (m * n) = trunc32 m * trunc32 n := BitVec.ofInt_mul m n

/-! ### Shifts and comparisons over the integers -/

/-- The low five bits are the remainder by 32 (R95). -/
theorem shiftAmount_eq (a : Word) : shiftAmount a = a.toNat % 32 := by
  rw [shiftAmount, toNat_extract_div]
  simp

/-- A left shift multiplies the unsigned value (R123). -/
theorem shiftLeft_eq_trunc32 (a : Word) (n : Nat) : a <<< n = trunc32 (unsigned a * 2 ^ n) := by
  have hproduct : unsigned a * 2 ^ n = (a.toNat * 2 ^ n : Nat) := by simp [unsigned]
  rw [hproduct, trunc32_natCast]
  refine BitVec.eq_of_toNat_eq ?_
  rw [BitVec.toNat_shiftLeft, Nat.shiftLeft_eq, BitVec.toNat_ofNat]

/-- A logical right shift divides the unsigned value (R127). -/
theorem ushiftRight_eq_trunc32 (a : Word) (n : Nat) : a >>> n = trunc32 (unsigned a / 2 ^ n) := by
  have hvalue : unsigned (a >>> n) = unsigned a / 2 ^ n := by
    simp [unsigned, Nat.shiftRight_eq_div_pow]
  rw [← hvalue, trunc32_unsigned]

/-- An arithmetic right shift divides the signed value (R128). -/
theorem sshiftRight_eq_trunc32 (a : Word) (n : Nat) : a.sshiftRight n = trunc32 (signed a / 2 ^ n) := by
  have hvalue : signed (a.sshiftRight n) = signed a / 2 ^ n := by
    simp [signed, BitVec.toInt_sshiftRight, Int.shiftRight_eq_div_pow]
  rw [← hvalue, trunc32_signed]

/-- The comparison of signed values (R124). -/
theorem truthWord_ltSigned (a b : Word) : truthWord (ltSigned a b) = if signed a < signed b then 1 else 0 := by
  simp [truthWord, ltSigned]

/-- The comparison of unsigned values (R125). -/
theorem truthWord_ltUnsigned (a b : Word) : truthWord (ltUnsigned a b) = if unsigned a < unsigned b then 1 else 0 := by
  simp [truthWord, ltUnsigned]

end Sys2Proof.Machine

open Sys2Proof Sys2Proof.Machine

/-- Settles O23: narrowing commutes with sum and difference and gives back a word from either of its two readings. -/
theorem addAndSubResults : Obligations.AddAndSubResults := by
  refine ⟨encodedAs_row (.add 0 0 0), encodedAs_row (.sub 0 0 0), fun s rd rs1 rs2 => ?_⟩
  have hadd := exec_add rd rs1 rs2 s
  have hsub := exec_sub rd rs1 rs2 s
  refine ⟨register_result_of_exec hadd ?_, register_result_of_exec hadd ?_, register_result_of_exec hsub ?_,
    register_result_of_exec hsub ?_⟩
  · rw [trunc32_add, trunc32_unsigned, trunc32_unsigned]
  · rw [trunc32_add, trunc32_signed, trunc32_signed]
  · rw [trunc32_sub, trunc32_unsigned, trunc32_unsigned]
  · rw [trunc32_sub, trunc32_signed, trunc32_signed]

/-- Settles O24: each shift is the narrowed product or quotient by a power of two, for the amount `shiftAmount x[rs2]`. -/
theorem registerShiftResults : Obligations.RegisterShiftResults := by
  refine ⟨encodedAs_row (.sll 0 0 0), encodedAs_row (.srl 0 0 0), encodedAs_row (.sra 0 0 0), ?_⟩
  intro s rd rs1 rs2 n hn
  obtain rfl : n = shiftAmount (s.x rs2) := by rw [hn, shiftAmount_eq]
  exact ⟨register_result_of_exec (exec_sll rd rs1 rs2 s) (shiftLeft_eq_trunc32 _ _),
    register_result_of_exec (exec_srl rd rs1 rs2 s) (ushiftRight_eq_trunc32 _ _),
    register_result_of_exec (exec_sra rd rs1 rs2 s) (sshiftRight_eq_trunc32 _ _)⟩

/-- Settles O25: the word of each comparison is 1 or 0 by the integers compared. -/
theorem registerCompareResults : Obligations.RegisterCompareResults :=
  ⟨encodedAs_row (.slt 0 0 0), encodedAs_row (.sltu 0 0 0), fun s rd rs1 rs2 =>
    ⟨register_result_of_exec (exec_slt rd rs1 rs2 s) (truthWord_ltSigned _ _),
      register_result_of_exec (exec_sltu rd rs1 rs2 s) (truthWord_ltUnsigned _ _)⟩⟩

/-- Settles O26: the result is the word operation on the operands, whose bits are those of the operands combined. -/
theorem registerBitwiseResults : Obligations.RegisterBitwiseResults :=
  ⟨encodedAs_row (.xor 0 0 0), encodedAs_row (.or 0 0 0), encodedAs_row (.and 0 0 0), fun s rd rs1 rs2 =>
    ⟨⟨_, register_result_of_exec (exec_xor rd rs1 rs2 s) rfl, fun _ _ => BitVec.getLsbD_xor⟩,
      ⟨_, register_result_of_exec (exec_or rd rs1 rs2 s) rfl, fun _ _ => BitVec.getLsbD_or⟩,
      ⟨_, register_result_of_exec (exec_and rd rs1 rs2 s) rfl, fun _ _ => BitVec.getLsbD_and⟩⟩⟩

end

section
/-! Immediate results (`41_alu_immediate.md` R141 to R151): the immediate operand as an integer and as bits, and the frame of
the instructions that take one. -/

namespace Sys2Proof.Machine

/-! ### The immediate operands -/

/-- Sign extension is narrowing of the signed value (R140). -/
theorem sext_eq_trunc32 {n : Nat} (imm : BitVec n) : sext imm = trunc32 imm.toInt := rfl

/-- A sign-extended immediate read as unsigned is its signed value modulo 2^32 (R143). -/
theorem unsigned_sext {n : Nat} (imm : BitVec n) : unsigned (sext imm) = imm.toInt % 4294967296 := by
  have hnonneg : 0 ≤ imm.toInt % 4294967296 := Int.emod_nonneg _ (by decide)
  rw [sext_eq_trunc32, unsigned, trunc32, BitVec.toNat_ofInt]
  exact Int.toNat_of_nonneg hnonneg

/-- Bits 31 to 12 of a sign-extended 12-bit immediate are copies of bit 11 (R90). -/
theorem getLsbD_sext12 (imm : BitVec 12) {k : Nat} (hk : k < 32) : (sext imm).getLsbD k = imm.getLsbD (min k 11) := by
  rw [sext, BitVec.getLsbD_signExtend, decide_eq_true hk, Bool.true_and]
  by_cases hlow : k < 12
  · rw [if_pos hlow, min_eq_left (Nat.le_of_lt_succ hlow)]
  · rw [if_neg hlow, BitVec.msb_eq_getLsbD_last, min_eq_right (by omega)]

/-- The 20 bits above twelve zeros are their value times 2^12 (R93). -/
theorem upper_eq_trunc32 (imm : BitVec 20) : upper imm = trunc32 (imm.toNat * 4096) := by
  have hproduct : (imm.toNat * 4096 : Int) = (imm.toNat * 4096 : Nat) := by simp
  have hlt := imm.isLt
  rw [hproduct, trunc32_natCast]
  refine BitVec.eq_of_toNat_eq ?_
  rw [upper, toNat_append_mul, BitVec.toNat_ofNat, BitVec.toNat_ofNat]
  omega

/-! ### The operation of each instruction -/

section
variable (rd rs1 : Reg) (imm : BitVec 12) (shamt : BitVec 5) (u : BitVec 20) (s : State)

theorem exec_addi : exec (.addi rd rs1 imm) s = execImmediate (· + ·) rd rs1 imm s := rfl

theorem exec_slti : exec (.slti rd rs1 imm) s = execImmediate (fun a b => truthWord (ltSigned a b)) rd rs1 imm s := rfl

theorem exec_sltiu : exec (.sltiu rd rs1 imm) s = execImmediate (fun a b => truthWord (ltUnsigned a b)) rd rs1 imm s := rfl

theorem exec_xori : exec (.xori rd rs1 imm) s = execImmediate (· ^^^ ·) rd rs1 imm s := rfl

theorem exec_ori : exec (.ori rd rs1 imm) s = execImmediate (· ||| ·) rd rs1 imm s := rfl

theorem exec_andi : exec (.andi rd rs1 imm) s = execImmediate (· &&& ·) rd rs1 imm s := rfl

theorem exec_slli : exec (.slli rd rs1 shamt) s = execShiftImmediate (fun a n => a <<< n) rd rs1 shamt s := rfl

theorem exec_srli : exec (.srli rd rs1 shamt) s = execShiftImmediate (fun a n => a >>> n) rd rs1 shamt s := rfl

theorem exec_srai : exec (.srai rd rs1 shamt) s = execShiftImmediate (fun a n => a.sshiftRight n) rd rs1 shamt s := rfl

theorem exec_lui : exec (.lui rd u) s = s.writeRd rd (upper u) := rfl

theorem exec_auipc : exec (.auipc rd u) s = s.writeRd rd (s.pc + upper u) := rfl

end

/-! ### The result of an instruction from its operation -/

section
variable {i : Instr} {s : State} {rd rs1 : Reg} {v : Word}

/-- An instruction `i` that writes a word equal to `v`. -/
theorem register_result_of_writeRd {u : Word} (hi : exec i s = s.writeRd rd u) (hv : u = v) :
    RegisterResult s rd v (exec i s) := by
  rw [hi, hv]
  exact s.writeRd_result rd v

/-- A register-immediate instruction `i` whose operation has the value `v` on `x[rs1]` and the sign-extended immediate. -/
theorem immediate_result_of_exec {f : Word → Word → Word} {imm : BitVec 12} (hi : exec i s = execImmediate f rd rs1 imm s)
    (hv : f (s.x rs1) (sext imm) = v) : RegisterResult s rd v (exec i s) :=
  register_result_of_writeRd hi hv

/-- A constant shift `i` whose operation has the value `v` on `x[rs1]` and the amount. -/
theorem shift_immediate_result_of_exec {f : Word → Nat → Word} {shamt : BitVec 5}
    (hi : exec i s = execShiftImmediate f rd rs1 shamt s) (hv : f (s.x rs1) shamt.toNat = v) :
    RegisterResult s rd v (exec i s) :=
  register_result_of_writeRd hi hv

end

end Sys2Proof.Machine

open Sys2Proof Sys2Proof.Machine

/-- Settles O27: the immediate operand is the narrowed signed value, and its two readings are `signed_sext` and
`unsigned_sext`. -/
theorem immediateArithmeticResults : Obligations.ImmediateArithmeticResults := by
  refine ⟨encodedAs_row (.addi 0 0 0), encodedAs_row (.slti 0 0 0), encodedAs_row (.sltiu 0 0 0), fun s rd rs1 imm => ?_⟩
  refine ⟨immediate_result_of_exec (exec_addi rd rs1 imm s) ?_, immediate_result_of_exec (exec_slti rd rs1 imm s) ?_,
    immediate_result_of_exec (exec_sltiu rd rs1 imm s) ?_⟩
  · rw [trunc32_add, trunc32_unsigned, sext_eq_trunc32]
  · rw [truthWord_ltSigned, signed_sext imm (by decide)]
  · rw [truthWord_ltUnsigned, unsigned_sext]

/-- Settles O28: the result is the word operation on `x[rs1]` and the immediate operand, whose bits `getLsbD_sext12` gives. -/
theorem immediateBitwiseResults : Obligations.ImmediateBitwiseResults := by
  refine ⟨encodedAs_row (.xori 0 0 0), encodedAs_row (.ori 0 0 0), encodedAs_row (.andi 0 0 0), fun s rd rs1 imm => ?_⟩
  refine ⟨⟨_, immediate_result_of_exec (exec_xori rd rs1 imm s) rfl, fun k hk => ?_⟩,
    ⟨_, immediate_result_of_exec (exec_ori rd rs1 imm s) rfl, fun k hk => ?_⟩,
    ⟨_, immediate_result_of_exec (exec_andi rd rs1 imm s) rfl, fun k hk => ?_⟩⟩
  · rw [BitVec.getLsbD_xor, getLsbD_sext12 imm hk]
  · rw [BitVec.getLsbD_or, getLsbD_sext12 imm hk]
  · rw [BitVec.getLsbD_and, getLsbD_sext12 imm hk]

/-- Settles O29: the shifts of O24, with the constant as the amount. -/
theorem immediateShiftResults : Obligations.ImmediateShiftResults :=
  ⟨encodedAs_row (.slli 0 0 0), encodedAs_row (.srli 0 0 0), encodedAs_row (.srai 0 0 0), fun s rd rs1 shamt =>
    ⟨shift_immediate_result_of_exec (exec_slli rd rs1 shamt s) (shiftLeft_eq_trunc32 _ _),
      shift_immediate_result_of_exec (exec_srli rd rs1 shamt s) (ushiftRight_eq_trunc32 _ _),
      shift_immediate_result_of_exec (exec_srai rd rs1 shamt s) (sshiftRight_eq_trunc32 _ _)⟩⟩

/-- Settles O30: the operand is the narrowed product by 2^12, and narrowing commutes with the sum from `pc`. -/
theorem upperImmediateResults : Obligations.UpperImmediateResults := by
  refine ⟨encodedAs_row (.lui 0 0), encodedAs_row (.auipc 0 0), fun s rd imm => ?_⟩
  refine ⟨register_result_of_writeRd (exec_lui rd imm s) (upper_eq_trunc32 imm),
    register_result_of_writeRd (exec_auipc rd imm s) ?_⟩
  rw [trunc32_add, trunc32_unsigned, upper_eq_trunc32]

end

section
/-! Multiply results (`43_muldiv.md` R182 to R184): the high half of a product as a floor over the integers. -/

namespace Sys2Proof.Machine

/-! ### The high half of a product -/

/-- Bits 63:32 of the 64-bit form of any integer are those of its floor over 2^32 (R182). -/
theorem highHalf_eq_trunc32 (p : Int) : highHalf p = trunc32 (p / 4294967296) := by
  refine BitVec.eq_of_toNat_eq ?_
  rw [highHalf, toNat_extract_div, trunc32, BitVec.toNat_ofInt, BitVec.toNat_ofInt]
  -- Reducing modulo 2^64 removes a multiple of 2^64 from `p`, hence a multiple of 2^32 from its floor.
  omega

/-! ### The operation of each instruction -/

section
variable (rd rs1 rs2 : Reg) (s : State)

theorem exec_mulh :
    exec (.mulh rd rs1 rs2) s = execBinary (fun a b => highHalf (signed a * signed b)) rd rs1 rs2 s := rfl

theorem exec_mulhsu :
    exec (.mulhsu rd rs1 rs2) s = execBinary (fun a b => highHalf (signed a * unsigned b)) rd rs1 rs2 s := rfl

theorem exec_mulhu :
    exec (.mulhu rd rs1 rs2) s = execBinary (fun a b => highHalf (unsigned a * unsigned b)) rd rs1 rs2 s := rfl

end

end Sys2Proof.Machine

open Sys2Proof Sys2Proof.Machine

/-- Settles O34: the three forms differ in how the operands are read; the high half of any product is its floor over 2^32. -/
theorem mulHighResults : Obligations.MulHighResults :=
  ⟨encodedAs_row (.mulh 0 0 0), encodedAs_row (.mulhsu 0 0 0), encodedAs_row (.mulhu 0 0 0), fun s rd rs1 rs2 =>
    ⟨register_result_of_exec (exec_mulh rd rs1 rs2 s) (highHalf_eq_trunc32 _),
      register_result_of_exec (exec_mulhsu rd rs1 rs2 s) (highHalf_eq_trunc32 _),
      register_result_of_exec (exec_mulhu rd rs1 rs2 s) (highHalf_eq_trunc32 _)⟩⟩

end

section
/-! The round trip between words and instructions (`30_encoding.md` R82 to R97): the fields of an encoded word are the operands,
and the encoding of a word's own fields is the word. -/

namespace Sys2Proof

/-! ### From an instruction to its word and back -/

open Laws in
/-- The word of an instruction is one of the words of its row (R97). -/
theorem rowMatches_encode : ∀ i : Instr, i.RowMatches (encode i)
  | .lui rd imm => EncodingMatchesRow.lui rd imm
  | .auipc rd imm => EncodingMatchesRow.auipc rd imm
  | .jal rd dist => EncodingMatchesRow.jal rd dist
  | .jalr rd rs1 imm => EncodingMatchesRow.jalr rd rs1 imm
  | .beq rs1 rs2 dist => EncodingMatchesRow.beq rs1 rs2 dist
  | .bne rs1 rs2 dist => EncodingMatchesRow.bne rs1 rs2 dist
  | .blt rs1 rs2 dist => EncodingMatchesRow.blt rs1 rs2 dist
  | .bge rs1 rs2 dist => EncodingMatchesRow.bge rs1 rs2 dist
  | .bltu rs1 rs2 dist => EncodingMatchesRow.bltu rs1 rs2 dist
  | .bgeu rs1 rs2 dist => EncodingMatchesRow.bgeu rs1 rs2 dist
  | .lb rd rs1 imm => EncodingMatchesRow.lb rd rs1 imm
  | .lh rd rs1 imm => EncodingMatchesRow.lh rd rs1 imm
  | .lw rd rs1 imm => EncodingMatchesRow.lw rd rs1 imm
  | .lbu rd rs1 imm => EncodingMatchesRow.lbu rd rs1 imm
  | .lhu rd rs1 imm => EncodingMatchesRow.lhu rd rs1 imm
  | .sb rs2 rs1 imm => EncodingMatchesRow.sb rs2 rs1 imm
  | .sh rs2 rs1 imm => EncodingMatchesRow.sh rs2 rs1 imm
  | .sw rs2 rs1 imm => EncodingMatchesRow.sw rs2 rs1 imm
  | .addi rd rs1 imm => EncodingMatchesRow.addi rd rs1 imm
  | .slti rd rs1 imm => EncodingMatchesRow.slti rd rs1 imm
  | .sltiu rd rs1 imm => EncodingMatchesRow.sltiu rd rs1 imm
  | .xori rd rs1 imm => EncodingMatchesRow.xori rd rs1 imm
  | .ori rd rs1 imm => EncodingMatchesRow.ori rd rs1 imm
  | .andi rd rs1 imm => EncodingMatchesRow.andi rd rs1 imm
  | .slli rd rs1 shamt => EncodingMatchesRow.slli rd rs1 shamt
  | .srli rd rs1 shamt => EncodingMatchesRow.srli rd rs1 shamt
  | .srai rd rs1 shamt => EncodingMatchesRow.srai rd rs1 shamt
  | .add rd rs1 rs2 => EncodingMatchesRow.add rd rs1 rs2
  | .sub rd rs1 rs2 => EncodingMatchesRow.sub rd rs1 rs2
  | .sll rd rs1 rs2 => EncodingMatchesRow.sll rd rs1 rs2
  | .slt rd rs1 rs2 => EncodingMatchesRow.slt rd rs1 rs2
  | .sltu rd rs1 rs2 => EncodingMatchesRow.sltu rd rs1 rs2
  | .xor rd rs1 rs2 => EncodingMatchesRow.xor rd rs1 rs2
  | .srl rd rs1 rs2 => EncodingMatchesRow.srl rd rs1 rs2
  | .sra rd rs1 rs2 => EncodingMatchesRow.sra rd rs1 rs2
  | .or rd rs1 rs2 => EncodingMatchesRow.or rd rs1 rs2
  | .and rd rs1 rs2 => EncodingMatchesRow.and rd rs1 rs2
  | .mul rd rs1 rs2 => EncodingMatchesRow.mul rd rs1 rs2
  | .mulh rd rs1 rs2 => EncodingMatchesRow.mulh rd rs1 rs2
  | .mulhsu rd rs1 rs2 => EncodingMatchesRow.mulhsu rd rs1 rs2
  | .mulhu rd rs1 rs2 => EncodingMatchesRow.mulhu rd rs1 rs2
  | .div rd rs1 rs2 => EncodingMatchesRow.div rd rs1 rs2
  | .divu rd rs1 rs2 => EncodingMatchesRow.divu rd rs1 rs2
  | .rem rd rs1 rs2 => EncodingMatchesRow.rem rd rs1 rs2
  | .remu rd rs1 rs2 => EncodingMatchesRow.remu rd rs1 rs2
  | .mret => EncodingMatchesRow.mret
  | .ecall => EncodingMatchesRow.ecall
  | .fence high low => EncodingMatchesRow.fence high low
  | .fenceI mid low => EncodingMatchesRow.fenceI mid low

/-- The operands are the fields of the encoded word; an odd distance would lose its bit 0. -/
theorem withFields_encode (i : Instr) (hwf : i.wf = true) : i.withFields (encode i) = i := by
  cases i
  case jal rd dist => simp [Instr.withFields, encode, immJ_encodeJ rd dist hwf]
  case beq rs1 rs2 dist | bne rs1 rs2 dist | blt rs1 rs2 dist | bge rs1 rs2 dist | bltu rs1 rs2 dist |
      bgeu rs1 rs2 dist =>
    simp [Instr.withFields, encode, immB_encodeB rs1 rs2 _ dist hwf]
  case fence | fenceI => simp [Instr.withFields]
  all_goals simp [Instr.withFields, encode, encodeOp]

/-! ### From a word to its fields and back: the six formats -/

@[simp] theorem bitsOfReg_rdField (w : Word) : bitsOfReg (rdField w) = w.extractLsb' 7 5 := bitsOfReg_regOfBits _
@[simp] theorem bitsOfReg_rs1Field (w : Word) : bitsOfReg (rs1Field w) = w.extractLsb' 15 5 := bitsOfReg_regOfBits _
@[simp] theorem bitsOfReg_rs2Field (w : Word) : bitsOfReg (rs2Field w) = w.extractLsb' 20 5 := bitsOfReg_regOfBits _

/-- An immediate's bit 0 is 0, when the format fixes it (R92, R94). -/
theorem evenDistance_append {n : Nat} (x : BitVec n) : evenDistance (x ++ 0#1) = true := by
  rw [evenDistance, BitVec.getLsbD_append]
  simp

section
variable {w : Word} {op f7 : BitVec 7} {f3 : BitVec 3}

theorem encodeR_fields (hop : opcodeField w = op) (h3 : funct3Field w = f3) (h7 : funct7Field w = f7) :
    encodeR f7 (w.extractLsb' 20 5) (rs1Field w) f3 (rdField w) op = w := by
  subst hop h3 h7
  refine BitVec.eq_of_toNat_eq ?_
  rw [encodeR_toNat]
  simp only [funct7Field, funct3Field, opcodeField, bitsOfReg_rdField, bitsOfReg_rs1Field, toNat_extract_div]
  omega

theorem encodeI_fields (hop : opcodeField w = op) (h3 : funct3Field w = f3) :
    encodeI (immI w) (rs1Field w) f3 (rdField w) op = w := by
  subst hop h3
  refine BitVec.eq_of_toNat_eq ?_
  rw [encodeI_toNat]
  simp only [immI, funct3Field, opcodeField, bitsOfReg_rdField, bitsOfReg_rs1Field, toNat_extract_div]
  omega

theorem encodeS_fields (hop : opcodeField w = 0b0100011#7) (h3 : funct3Field w = f3) :
    encodeS (immS w) (rs2Field w) (rs1Field w) f3 = w := by
  subst h3
  have hop' : w.toNat / 2 ^ 0 % 2 ^ 7 = 35 := by rw [← toNat_extract_div]; exact congrArg BitVec.toNat hop
  refine BitVec.eq_of_toNat_eq ?_
  rw [encodeS_toNat]
  simp only [immS, funct3Field, bitsOfReg_rs2Field, bitsOfReg_rs1Field, toNat_extract_div, toNat_append_mul]
  omega

theorem immB_toNat (w : Word) : (immB w).toNat =
    (w.extractLsb' 31 1).toNat * 4096 + (w.extractLsb' 7 1).toNat * 2048 + (w.extractLsb' 25 6).toNat * 32 +
      (w.extractLsb' 8 4).toNat * 2 := by
  simp only [immB, toNat_append_mul, show (0#1).toNat = 0 from rfl]
  omega

/-- The B-immediate's parts are at the places of R85. -/
theorem immB_parts (w : Word) :
    (immB w).extractLsb' 12 1 = w.extractLsb' 31 1 ∧ (immB w).extractLsb' 5 6 = w.extractLsb' 25 6 ∧
      (immB w).extractLsb' 1 4 = w.extractLsb' 8 4 ∧ (immB w).extractLsb' 11 1 = w.extractLsb' 7 1 := by
  have hvalue := immB_toNat w
  generalize w.extractLsb' 31 1 = top, w.extractLsb' 25 6 = high, w.extractLsb' 8 4 = low, w.extractLsb' 7 1 = bit11
    at hvalue ⊢
  refine ⟨?_, ?_, ?_, ?_⟩ <;> refine BitVec.eq_of_toNat_eq ?_ <;> rw [toNat_extract_div, hvalue] <;> omega

theorem encodeB_fields (hop : opcodeField w = 0b1100011#7) (h3 : funct3Field w = f3) :
    encodeB (immB w) (rs2Field w) (rs1Field w) f3 = w := by
  subst h3
  have hop' : w.toNat / 2 ^ 0 % 2 ^ 7 = 99 := by rw [← toNat_extract_div]; exact congrArg BitVec.toNat hop
  obtain ⟨htop, hhigh, hlow, hbit⟩ := immB_parts w
  refine BitVec.eq_of_toNat_eq ?_
  rw [encodeB_toNat, htop, hhigh, hlow, hbit]
  simp only [funct3Field, bitsOfReg_rs2Field, bitsOfReg_rs1Field, toNat_extract_div]
  omega

theorem encodeU_fields (hop : opcodeField w = op) : encodeU (immU w) (rdField w) op = w := by
  subst hop
  refine BitVec.eq_of_toNat_eq ?_
  rw [encodeU_toNat]
  simp only [immU, opcodeField, bitsOfReg_rdField, toNat_extract_div]
  omega

theorem immJ_toNat (w : Word) : (immJ w).toNat =
    (w.extractLsb' 31 1).toNat * 1048576 + (w.extractLsb' 12 8).toNat * 4096 + (w.extractLsb' 20 1).toNat * 2048 +
      (w.extractLsb' 21 10).toNat * 2 := by
  simp only [immJ, toNat_append_mul, show (0#1).toNat = 0 from rfl]
  omega

/-- The J-immediate's parts are at the places of R87. -/
theorem immJ_parts (w : Word) :
    (immJ w).extractLsb' 20 1 = w.extractLsb' 31 1 ∧ (immJ w).extractLsb' 1 10 = w.extractLsb' 21 10 ∧
      (immJ w).extractLsb' 11 1 = w.extractLsb' 20 1 ∧ (immJ w).extractLsb' 12 8 = w.extractLsb' 12 8 := by
  have hvalue := immJ_toNat w
  generalize w.extractLsb' 31 1 = top, w.extractLsb' 21 10 = low, w.extractLsb' 20 1 = bit11, w.extractLsb' 12 8 = mid
    at hvalue ⊢
  refine ⟨?_, ?_, ?_, ?_⟩ <;> refine BitVec.eq_of_toNat_eq ?_ <;> rw [toNat_extract_div, hvalue] <;> omega

theorem encodeJ_fields (hop : opcodeField w = 0b1101111#7) : encodeJ (immJ w) (rdField w) = w := by
  have hop' : w.toNat / 2 ^ 0 % 2 ^ 7 = 111 := by rw [← toNat_extract_div]; exact congrArg BitVec.toNat hop
  obtain ⟨htop, hlow, hbit, hmid⟩ := immJ_parts w
  refine BitVec.eq_of_toNat_eq ?_
  rw [encodeJ_toNat, htop, hlow, hbit, hmid]
  simp only [bitsOfReg_rdField, toNat_extract_div]
  omega

/-- A word is its opcode and `funct3`, and the bits that a `fence` keeps as operands (log 14). -/
theorem encode_fence_fields (hop : opcodeField w = 0b0001111#7) (h3 : funct3Field w = 0b000#3) :
    encode (.fence (w.extractLsb' 15 17) (w.extractLsb' 7 5)) = w := by
  have hop' : w.toNat / 2 ^ 0 % 2 ^ 7 = 15 := by rw [← toNat_extract_div]; exact congrArg BitVec.toNat hop
  have h3' : w.toNat / 2 ^ 12 % 2 ^ 3 = 0 := by rw [← toNat_extract_div]; exact congrArg BitVec.toNat h3
  refine BitVec.eq_of_toNat_eq ?_
  rw [fence_toNat]
  simp only [toNat_extract_div]
  omega

theorem encode_fenceI_fields (hop : opcodeField w = 0b0001111#7) (h3 : funct3Field w = 0b001#3)
    (h7 : funct7Field w = 0b0000000#7) : encode (.fenceI (w.extractLsb' 15 10) (w.extractLsb' 7 5)) = w := by
  have hop' : w.toNat / 2 ^ 0 % 2 ^ 7 = 15 := by rw [← toNat_extract_div]; exact congrArg BitVec.toNat hop
  have h3' : w.toNat / 2 ^ 12 % 2 ^ 3 = 1 := by rw [← toNat_extract_div]; exact congrArg BitVec.toNat h3
  have h7' : w.toNat / 2 ^ 25 % 2 ^ 7 = 0 := by rw [← toNat_extract_div]; exact congrArg BitVec.toNat h7
  refine BitVec.eq_of_toNat_eq ?_
  rw [fenceI_toNat]
  simp only [toNat_extract_div]
  omega

end

/-! ### The instruction of a row with the fields of a word of the row -/

/-- The decoder builds well-formed instructions only. -/
theorem wf_withFields (j : Instr) (w : Word) : (j.withFields w).wf = true := by
  cases j
  case jal | beq | bne | blt | bge | bltu | bgeu => exact evenDistance_append _
  all_goals rfl

/-- A word of a row is the encoding of its own fields. -/
theorem encode_withFields {j : Instr} {w : Word} (h : j.RowMatches w) : encode (j.withFields w) = w := by
  cases j
  case lui | auipc =>
    have hop := (rowMatches_iff_opcode rfl).1 h
    exact encodeU_fields (by simpa [Instr.row] using hop)
  case jal =>
    have hop := (rowMatches_iff_opcode rfl).1 h
    exact encodeJ_fields (by simpa [Instr.row] using hop)
  case mret | ecall => exact ((rowMatches_iff_word rfl).1 h).symm
  case beq | bne | blt | bge | bltu | bgeu =>
    obtain ⟨hop, h3⟩ := (rowMatches_iff_funct3 rfl).1 h
    exact encodeB_fields (by simpa [Instr.row] using hop) (by simpa [Instr.row] using h3)
  case sb | sh | sw =>
    obtain ⟨hop, h3⟩ := (rowMatches_iff_funct3 rfl).1 h
    exact encodeS_fields (by simpa [Instr.row] using hop) (by simpa [Instr.row] using h3)
  case fence =>
    obtain ⟨hop, h3⟩ := (rowMatches_iff_funct3 rfl).1 h
    exact encode_fence_fields (by simpa [Instr.row] using hop) (by simpa [Instr.row] using h3)
  case jalr | lb | lh | lw | lbu | lhu | addi | slti | sltiu | xori | ori | andi =>
    obtain ⟨hop, h3⟩ := (rowMatches_iff_funct3 rfl).1 h
    exact encodeI_fields (by simpa [Instr.row] using hop) (by simpa [Instr.row] using h3)
  case fenceI =>
    obtain ⟨hop, h3, h7⟩ := (rowMatches_iff_funct7 rfl).1 h
    exact encode_fenceI_fields (by simpa [Instr.row] using hop) (by simpa [Instr.row] using h3)
      (by simpa [Instr.row] using h7)
  all_goals
    obtain ⟨hop, h3, h7⟩ := (rowMatches_iff_funct7 rfl).1 h
    simp only [Instr.withFields, encode, encodeOp, shamtField, bitsOfReg_rs2Field]
    exact encodeR_fields (by simpa [Instr.row] using hop) (by simpa [Instr.row] using h3) (by simpa [Instr.row] using h7)

/-- The operands of a decoded instruction are the fields of the word. -/
theorem withFields_of_decode {w : Word} {i : Instr} (h : decode w = .ok i) : i.withFields w = i :=
  Except.ok.inj ((decode_of_rowMatches i (rowMatches_of_decode h)).symm.trans h)

end Sys2Proof

open Sys2Proof

/-- Settles O1: the encoded word is one of the words of the row, and its fields are the operands. -/
theorem decodeOfEncode : Obligations.DecodeOfEncode := fun i hwf => by
  rw [decode_of_rowMatches i (rowMatches_encode i), withFields_encode i hwf]

/-- Settles O2: a decoded instruction is that of its row with the fields of the word, which encode to the word. -/
theorem encodeOfDecode : Obligations.EncodeOfDecode := fun w i hdecode => by
  rw [← withFields_of_decode hdecode]
  exact ⟨wf_withFields i w, encode_withFields (rowMatches_of_decode hdecode)⟩

/-- Settles O5: the decoder, run on the ten words. -/
theorem sampleWordsDecode : Obligations.SampleWordsDecode := by
  unfold Obligations.SampleWordsDecode
  decide

end

section
/-! Frames over all instructions: what each next state of `ExecShape` leaves unchanged (`10_state.md` R21 to R30,
`20_memory.md` R53, R57). -/

namespace Sys2Proof.Machine

section
variable {i : Instr} {s t : State}

/-- No instruction changes a parameter or takes a sample of the interrupt input. -/
theorem ExecShape.sameEnvironment (h : ExecShape i s t) : SameEnvironment s t := by
  cases h
  case register rd v hi | jump rd v target hi ha => exact ⟨State.setX_cfg s rd v, State.setX_irq s rd v⟩
  all_goals exact ⟨rfl, rfl⟩

/-- Only a register result and the link of a jump write a register, and both write the destination. -/
theorem ExecShape.x_other (h : ExecShape i s t) {r : Reg} (hr : i.rd? ≠ some r) : t.x r = s.x r := by
  cases h
  case register rd v hi =>
    have hne : r ≠ rd := fun e => hr (e ▸ hi)
    exact State.x_setX_other s hne v
  case jump rd v target hi ha =>
    have hne : r ≠ rd := fun e => hr (e ▸ hi)
    exact State.x_setX_other s hne v
  all_goals rfl

/-- Only `mret` and trap entry write a control register (R29, R30). -/
theorem ExecShape.control (h : ExecShape i s t) (hi : i ≠ .mret) :
    SameControl s t ∨ s.cfg.trapMode = .vector ∧ t = s.trapEntry := by
  cases h
  case trap hvector => exact .inr ⟨hvector, rfl⟩
  case trapReturn hmret _ => exact absurd hmret hi
  case register | jump => exact .inl ⟨by simp, by simp, by simp⟩
  all_goals exact .inl ⟨rfl, rfl, rfl⟩

/-- `mepc` is written by trap entry only (R29). -/
theorem ExecShape.mepc (h : ExecShape i s t) (hmode : s.cfg.trapMode = .fault) : t.mepc = s.mepc := by
  cases h
  case trap hvector => simp [hmode] at hvector
  case register | jump => simp
  all_goals rfl

/-- Only a store changes a byte of memory (R53). -/
theorem ExecShape.byte? (h : ExecShape i s t) {b : Word}
    (hb : ∀ a n, i.storesTo s = some (a, n) → ∀ k, k < n → b ≠ a + BitVec.ofNat 32 k) : t.byte? b = s.byte? b := by
  cases h
  case register rd v hi | jump rd v target hi ha => exact State.setX_byte? s rd v b
  case store a n v hi => exact State.store_byte?_other s a n v (hb a n hi)
  all_goals rfl

end

end Sys2Proof.Machine

open Sys2Proof Sys2Proof.Machine

/-- Settles O14: the sample is taken before the instruction runs, or before the trap is entered. -/
theorem stepKeepsTheParameters : Obligations.StepKeepsTheParameters := fun s t h => by
  rcases step_next h with ⟨-, rfl⟩ | ⟨i, -, hexec⟩
  · exact ⟨rfl, rfl⟩
  · exact (exec_next hexec).sameEnvironment

/-- Settles O15: shape by shape of a next state. -/
theorem generalRegistersChangeOnlyAtRd : Obligations.GeneralRegistersChangeOnlyAtRd := fun _ _ t h =>
  ⟨t.x_zero, fun _ hr => (exec_next h).x_other hr⟩

/-- Settles O17: a step under `TRAP_MODE = fault` enters no trap, so its instruction is what could write `mepc`. -/
theorem controlRegistersChangeOnlyByMretAndTrapEntry : Obligations.ControlRegistersChangeOnlyByMretAndTrapEntry := by
  refine ⟨fun i s t h hi => ?_, fun s t hmode h => ?_⟩
  · rcases (exec_next h).control hi with hsame | ⟨-, rfl⟩
    · exact .inl hsame
    · exact .inr s.trapEntry_entered
  · rcases step_next h with ⟨hvector, -⟩ | ⟨i, -, hexec⟩
    · simp [hmode] at hvector
    · exact (exec_next hexec).mepc hmode

/-- Settles O18: the bytes outside the store, of which an instruction that stores nothing has none. -/
theorem memoryChangesOnlyAtTheStoredBytes : Obligations.MemoryChangesOnlyAtTheStoredBytes := by
  refine fun i s t h => ⟨fun hnone b => ?_, fun a n hsome b hb => ?_⟩
  · refine (exec_next h).byte? fun a n hsome => ?_
    simp [hnone] at hsome
  · refine (exec_next h).byte? fun a' n' hsome' => ?_
    obtain ⟨rfl, rfl⟩ : a = a' ∧ n = n' := by simpa [hsome] using hsome'
    exact hb

end

section
/-! The invariant of the machine: it holds at launch (`70_reset_and_hazards.md` R281) and every step keeps it. -/

namespace Sys2Proof.Machine

/-! ### What a store does to the listed addresses -/

theorem Memory.isSome_read?_write {m : Memory} {a c : Nat} (v : Byte) (h : c = a ∨ (m.read? c).isSome = true) :
    ((m.write a v).read? c).isSome = true := by
  rw [Memory.read?_write]
  split
  · rfl
  · next hne => exact h.resolve_left hne

/-- After a store, the addresses that had a byte and those stored to have one. -/
theorem Memory.isSome_read?_writeLE {m : Memory} {a : Word} {w : Nat} (v : BitVec w) {n c : Nat}
    (h : (m.read? c).isSome = true ∨ ∃ k, k < n ∧ c = (a + BitVec.ofNat 32 k).toNat) :
    ((m.writeLE a v n).read? c).isSome = true := by
  induction n with
  | zero => simpa [Memory.writeLE] using h
  | succ n ih =>
    refine Memory.isSome_read?_write _ ?_
    rcases h with hold | ⟨k, hk, hc⟩
    · exact .inr (ih (.inl hold))
    · rcases Nat.lt_succ_iff_lt_or_eq.1 hk with hlt | rfl
      · exact .inr (ih (.inr ⟨k, hlt, hc⟩))
      · exact .inl hc

/-! ### The invariant, shape by shape -/

/-- The next word of an aligned address is aligned, around the end of memory too (R27). -/
theorem alignedTo_add_four {a : Word} (h : alignedTo 4 a = true) : alignedTo 4 (a + 4) = true := by
  rw [alignedTo_eq_true] at h ⊢
  bv_omega

section
variable {i : Instr} {s t : State}

/-- Two states with the same memory, `fetch_dirty`, slot 0 and parameters, the second with an aligned `pc`. -/
theorem State.Inv.of_same (h : s.Inv) (hmem : t.mem = s.mem) (hdirty : t.fetchDirty = s.fetchDirty)
    (hzero : t.regs[0] = s.regs[0]) (hcfg : t.cfg = s.cfg) (hpc : alignedTo 4 t.pc = true) : t.Inv where
  memory := hmem ▸ h.memory
  dirty := hdirty ▸ h.dirty
  dirtyListed := by rw [hmem, hdirty]; exact h.dirtyListed
  zeroSlot := hzero.trans h.zeroSlot
  pcAligned := hpc
  vector := hcfg ▸ h.vector

theorem State.Inv.trapEntry (h : s.Inv) (hmode : s.cfg.trapMode = .vector) : s.trapEntry.Inv :=
  h.of_same rfl rfl rfl rfl (h.vector hmode)

theorem State.Inv.advance (h : s.Inv) : s.advance.Inv :=
  h.of_same rfl rfl rfl rfl (alignedTo_add_four h.pcAligned)

theorem State.Inv.setX (h : s.Inv) (r : Reg) (v : Word) : (s.setX r v).Inv :=
  h.of_same (by simp) (by simp) (by simp) (by simp) (by simpa using h.pcAligned)

theorem State.Inv.withPc (h : s.Inv) {target : Word} (ha : target.toNat % 4 = 0) : ({ s with pc := target } : State).Inv :=
  h.of_same rfl rfl rfl rfl ((alignedTo_eq_true 4 target).2 ha)

theorem State.Inv.store (h : s.Inv) (a : Word) (n : Nat) (v : BitVec (8 * n)) : (s.store a n v).Inv where
  memory := Memory.wf_writeLE h.memory a v n
  dirty := AddrSet.wf_addBytes h.dirty a n
  dirtyListed c hc :=
    Memory.isSome_read?_writeLE v (((AddrSet.mem_addBytes s.fetchDirty a n c).1 hc).imp_left (h.dirtyListed c))
  zeroSlot := h.zeroSlot
  pcAligned := h.pcAligned
  vector := h.vector

theorem State.Inv.emptyDirty (h : s.Inv) : ({ s with fetchDirty := [] } : State).Inv where
  memory := h.memory
  dirty := ⟨List.Pairwise.nil, by simp⟩
  dirtyListed := by simp
  zeroSlot := h.zeroSlot
  pcAligned := h.pcAligned
  vector := h.vector

/-- Every instruction keeps the invariant. -/
theorem ExecShape.inv (hshape : ExecShape i s t) (h : s.Inv) : t.Inv := by
  cases hshape with
  | trap hmode => exact h.trapEntry hmode
  | register rd v _ => exact (h.setX rd v).advance
  | advance => exact h.advance
  | branch target ha => exact h.withPc ha
  | jump rd v target _ ha => exact (h.setX rd v).withPc ha
  | trapReturn _ ha => exact h.of_same rfl rfl rfl rfl ((alignedTo_eq_true 4 s.mepc).2 ha)
  | store a n v _ => exact (h.store a n v).advance
  | fenceI => exact h.advance.emptyDirty

/-- Taking the sample of the interrupt input keeps it. -/
theorem State.Inv.tick (h : s.Inv) : s.tick.Inv := h.of_same rfl rfl rfl rfl h.pcAligned

end

/-! ### The launch state -/

section
variable {image : List Host.Cell} {m : Memory}

/-- The memory that `Memory.load` builds up, pair by pair. -/
def Memory.loadOnto (m : Memory) (image : List Host.Cell) : Memory :=
  image.foldl (fun m c => m.write (c.1 % 4294967296) c.2) m

theorem Memory.load_eq_loadOnto (image : List Host.Cell) : Memory.load image = Memory.loadOnto [] image := rfl

/-- An address in no pair of the image reads as before. -/
theorem Memory.read?_loadOnto_other {a : Nat} (h : ∀ c ∈ image, c.1 % 4294967296 ≠ a) :
    (m.loadOnto image).read? a = m.read? a := by
  induction image generalizing m with
  | nil => rfl
  | cons c image ih =>
    have hhead : a ≠ c.1 % 4294967296 := fun e => h c List.mem_cons_self e.symm
    refine (ih fun d hd => h d (List.mem_cons_of_mem c hd)).trans ?_
    rw [Memory.read?_write, if_neg hhead]

/-- An image with one pair for each of its addresses is read back. -/
theorem Memory.read?_loadOnto (hnodup : (image.map Prod.fst).Nodup) (hrange : ∀ c ∈ image, c.1 < 4294967296)
    {c : Host.Cell} (hc : c ∈ image) : (m.loadOnto image).read? c.1 = some c.2 := by
  induction image generalizing m with
  | nil => simp at hc
  | cons d image ih =>
    obtain ⟨hd, hnodup⟩ := List.nodup_cons.1 hnodup
    have htail : ∀ e ∈ image, e.1 < 4294967296 := fun e he => hrange e (List.mem_cons_of_mem d he)
    rcases List.mem_cons.1 hc with rfl | hc
    · have hrest : ∀ e ∈ image, e.1 % 4294967296 ≠ c.1 := fun e he heq => by
        rw [Nat.mod_eq_of_lt (htail e he)] at heq
        exact hd (heq ▸ List.mem_map_of_mem he)
      refine (Memory.read?_loadOnto_other hrest).trans ?_
      rw [Memory.read?_write, if_pos (Nat.mod_eq_of_lt (hrange c hc)).symm]
    · exact ih hnodup htail hc

/-- R40: the bytes of a launch image. -/
theorem Memory.read?_load (hnodup : (image.map Prod.fst).Nodup) (hrange : ∀ c ∈ image, c.1 < 4294967296) {c : Host.Cell}
    (hc : c ∈ image) : (Memory.load image).read? c.1 = some c.2 := by
  rw [Memory.load_eq_loadOnto]
  exact Memory.read?_loadOnto hnodup hrange hc

/-- R40: no other byte has a value of its own. -/
theorem Memory.read?_load_other (hrange : ∀ c ∈ image, c.1 < 4294967296) {a : Nat} (ha : ∀ c ∈ image, c.1 ≠ a) :
    (Memory.load image).read? a = none := by
  rw [Memory.load_eq_loadOnto]
  refine Memory.read?_loadOnto_other fun c hc => ?_
  rw [Nat.mod_eq_of_lt (hrange c hc)]
  exact ha c hc

end

/-- The launch state has the invariant when `RESET_PC` and `TRAP_VECTOR` are as R36 and R246 ask. -/
theorem State.launch_inv (cfg : Config) (regs : Vector Word 32) (mepc : Word) (mpie : Bool) (image : List Host.Cell)
    (irq : List Bool) (hpc : cfg.resetPc.toNat % 4 = 0) (hvector : trapVectorAligned cfg) :
    (State.launch cfg regs mepc mpie image irq).Inv where
  memory := Memory.wf_load image
  dirty := ⟨List.Pairwise.nil, by simp [State.launch]⟩
  dirtyListed := by simp [State.launch]
  zeroSlot := by simp [State.launch]
  pcAligned := (alignedTo_eq_true 4 cfg.resetPc).2 hpc
  vector := hvector

end Sys2Proof.Machine

open Sys2Proof Sys2Proof.Machine

/-- Settles O11: a step enters a trap, or runs an instruction, and each of its shapes keeps the invariant. -/
theorem stepKeepsTheInvariant : Obligations.StepKeepsTheInvariant := fun s t hinv h => by
  rcases step_next h with ⟨hmode, rfl⟩ | ⟨i, -, hexec⟩
  · exact hinv.tick.trapEntry hmode
  · exact (exec_next hexec).inv hinv.tick

/-- Settles O12: reset is a launch state. -/
theorem resetHasTheInvariant : Obligations.ResetHasTheInvariant := by
  unfold Obligations.ResetHasTheInvariant
  rw [State.reset_eq_launch]
  exact State.launch_inv _ _ _ _ _ _ (by decide) (by unfold trapVectorAligned; decide)

/-- Settles O13: the fields are those of `State.launch`, the bytes those of the image, loaded pair by pair. -/
theorem launchStateIsAsTheTableSays : Obligations.LaunchStateIsAsTheTableSays := by
  rintro cfg regs mepc mpie image irq s rfl
  refine ⟨rfl, rfl, fun r hr => ?_, rfl, rfl, rfl, rfl, fun hnodup hrange => ⟨fun c hc => ?_, fun a ha => ?_⟩,
    State.launch_inv cfg regs mepc mpie image irq⟩
  · have hne : (0 : Nat) ≠ r.val := fun e => hr (Fin.ext e.symm)
    simp [State.launch, State.x, hr, hne]
  · rw [State.byte?, BitVec.toNat_ofNat, Nat.mod_eq_of_lt (hrange c hc)]
    exact Memory.read?_load hnodup hrange hc
  · exact Memory.read?_load_other hrange ha

end

section
/-! The start of a step (`20_memory.md` R56, `60_exceptions.md` R243, `70_reset_and_hazards.md` R283): each check of the fetch,
what the step is when it answers, and the host's placement of a word. -/

namespace Sys2Proof.Machine

/-! ### The fetch, check by check -/

theorem State.stale_eq_true (s : State) (a : Word) (n : Nat) :
    s.stale a n = true ↔ ∃ j, j < n ∧ (a + BitVec.ofNat 32 j).toNat ∈ s.fetchDirty := by
  rw [State.stale, Bool.not_eq_true', ← Bool.not_eq_true, allBytes_eq_true]
  simp

theorem State.loaded_eq_false (s : State) (a : Word) (n : Nat) :
    s.loaded a n = false ↔ ∃ j, j < n ∧ s.byte? (a + BitVec.ofNat 32 j) = none := by
  rw [State.loaded, ← Bool.not_eq_true, allBytes_eq_true]
  simp

section
variable {s : State} {w : Word}

/-- R56 step 2. -/
theorem State.fetch_misaligned (ha : s.pc.toNat % 4 ≠ 0) : s.fetch = .raise (.instructionAddressMisaligned s.pc) := by
  simp [State.fetch, (alignedTo_eq_false 4 s.pc).2 ha]

/-- R56 step 3. -/
theorem State.fetch_notAdmitted (ha : s.pc.toNat % 4 = 0) (hm : ¬ Admitted s .fetch s.pc 4) :
    s.fetch = .raise (.instructionAccessFault s.pc) := by
  have hadmits : s.admits .fetch s.pc 4 = false := by rw [← Bool.not_eq_true, s.admits_eq_true]; exact hm
  simp [State.fetch, (alignedTo_eq_true 4 s.pc).2 ha, hadmits]

/-- R56 step 4. -/
theorem State.fetch_stale (ha : s.pc.toNat % 4 = 0) (hm : Admitted s .fetch s.pc 4)
    (hstale : ∃ j, j < 4 ∧ (s.pc + BitVec.ofNat 32 j).toNat ∈ s.fetchDirty) : s.fetch = .raise (.staleFetch s.pc) := by
  simp [State.fetch, (alignedTo_eq_true 4 s.pc).2 ha, (s.admits_eq_true .fetch s.pc 4).2 hm,
    (s.stale_eq_true s.pc 4).2 hstale]

theorem State.stale_of_fresh (hfresh : ∀ j, j < 4 → (s.pc + BitVec.ofNat 32 j).toNat ∉ s.fetchDirty) :
    s.stale s.pc 4 = false := by
  rw [← Bool.not_eq_true, State.stale_eq_true]
  rintro ⟨j, hj, hmem⟩
  exact hfresh j hj hmem

/-- The refusal of a device's bytes (R59). -/
theorem State.fetch_device (ha : s.pc.toNat % 4 = 0) (hm : Admitted s .fetch s.pc 4)
    (hfresh : ∀ j, j < 4 → (s.pc + BitVec.ofNat 32 j).toNat ∉ s.fetchDirty) (ho : ¬ Ordinary s s.pc 4) :
    s.fetch = .refuse (.deviceAccess s.pc) := by
  have hordinary : s.ordinary s.pc 4 = false := by rw [← Bool.not_eq_true, s.ordinary_eq_true]; exact ho
  simp [State.fetch, (alignedTo_eq_true 4 s.pc).2 ha, (s.admits_eq_true .fetch s.pc 4).2 hm,
    State.stale_of_fresh hfresh, hordinary]

/-- The refusal of bytes in no image (U5). -/
theorem State.fetch_unloaded (ha : s.pc.toNat % 4 = 0) (hm : Admitted s .fetch s.pc 4)
    (hfresh : ∀ j, j < 4 → (s.pc + BitVec.ofNat 32 j).toNat ∉ s.fetchDirty) (ho : Ordinary s s.pc 4)
    (hnone : ∃ j, j < 4 ∧ s.byte? (s.pc + BitVec.ofNat 32 j) = none) : s.fetch = .refuse (.fetchUnloaded s.pc) := by
  simp [State.fetch, (alignedTo_eq_true 4 s.pc).2 ha, (s.admits_eq_true .fetch s.pc 4).2 hm,
    State.stale_of_fresh hfresh, (s.ordinary_eq_true s.pc 4).2 ho, (s.loaded_eq_false s.pc 4).2 hnone]

/-! ### The next instruction and the step -/

theorem NoInterrupt.not_taken (hn : NoInterrupt s) : (s.irqPending && s.mie) = false := by
  rcases hn with hn | hn <;> simp [hn]

theorem State.nextInstr_of_interrupt (hp : s.irqPending = true) (he : s.mie = true) :
    s.nextInstr = .raise .interrupt := by
  simp [State.nextInstr, hp, he]

theorem State.nextInstr_of_fetch_raise {e : Exception} (hn : NoInterrupt s) (hf : s.fetch = .raise e) :
    s.nextInstr = .raise e := by
  simp [State.nextInstr, hn.not_taken, hf]

theorem State.nextInstr_of_fetch_refuse {r : Refusal} (hn : NoInterrupt s) (hf : s.fetch = .refuse r) :
    s.nextInstr = .refuse r := by
  simp [State.nextInstr, hn.not_taken, hf]

theorem State.nextInstr_of_undefined (hn : NoInterrupt s) (hf : Fetches s w) (hd : ∀ i, decode w ≠ .ok i) :
    s.nextInstr = .raise (.illegalInstruction w) := by
  cases hdecode : decode w with
  | ok i => exact absurd hdecode (hd i)
  | error r => simp [State.nextInstr, hn.not_taken, State.fetch_of_fetches hf, hdecode]

theorem step_of_ok {i : Instr} (h : s.nextInstr = .ok i) : step s = exec i s.tick := by
  rw [step, h]
  rfl

theorem step_of_raise {e : Exception} (h : s.nextInstr = .raise e) : step s = s.tick.raise e := by
  rw [step, h]
  rfl

theorem step_of_refuse {r : Refusal} (h : s.nextInstr = .refuse r) : step s = .refused r := by
  rw [step, h]
  rfl

theorem step_raises {e : Exception} (h : s.nextInstr = .raise e) : Raises s.tick e (step s) := by
  rw [step_of_raise h]
  exact s.tick.raise_raises e

/-- A step runs the instruction that the word at `pc` decodes to (R283). -/
theorem step_of_fetches {i : Instr} (hn : NoInterrupt s) (hf : Fetches s w) (hd : decode w = .ok i) :
    step s = exec i s.tick :=
  step_of_ok (State.nextInstr_of_fetches hn hf hd)

/-- A stale fetch ends the run in both trap modes (R246). -/
theorem State.raise_staleFetch (s : State) (p : Word) : s.raise (.staleFetch p) = .fault (.trap (.staleFetch p) s.pc) := by
  rw [State.raise_eq, if_neg (by simp [Exception.endsRun])]

/-- With `mie = 0` the input plays no part (R243). -/
theorem State.nextInstr_of_mie_false (hm : s.mie = false) (irq : List Bool) :
    ({ s with irq := irq } : State).nextInstr = s.nextInstr := by
  simp only [State.nextInstr, hm, Bool.and_false]
  rfl

end

/-- The four bytes of a concatenation, least significant first. -/
theorem extract_bytes (b0 b1 b2 b3 : Byte) :
    (b3 ++ b2 ++ b1 ++ b0).extractLsb' 0 8 = b0 ∧ (b3 ++ b2 ++ b1 ++ b0).extractLsb' 8 8 = b1 ∧
      (b3 ++ b2 ++ b1 ++ b0).extractLsb' 16 8 = b2 ∧ (b3 ++ b2 ++ b1 ++ b0).extractLsb' 24 8 = b3 := by
  have hvalue : (b3 ++ b2 ++ b1 ++ b0 : BitVec (8 + 8 + 8 + 8)).toNat =
      ((b3.toNat * 2 ^ 8 + b2.toNat) * 2 ^ 8 + b1.toNat) * 2 ^ 8 + b0.toNat := by
    simp only [toNat_append_mul]
  refine ⟨?_, ?_, ?_, ?_⟩ <;> refine BitVec.eq_of_toNat_eq ?_ <;> rw [toNat_extract_div, hvalue] <;> omega

/-! ### Placing a word -/

section
variable (s : State) (a : Word)

/-- A region of one byte holds that byte. -/
theorem regionHolds_fetchRegion (c : Word) : regionHolds (s.fetchRegion a) c = true ↔ a = c := by
  rw [regionHolds, Bool.and_eq_true, decide_eq_true_iff, decide_eq_true_iff, ← BitVec.toNat_inj]
  change a.toNat ≤ c.toNat ∧ c.toNat < a.toNat + 1 ↔ a.toNat = c.toNat
  omega

theorem regionAt_fetchRegion (rs : List Region) (c : Word) :
    regionAt (s.fetchRegion a :: rs) c = if a = c then some (s.fetchRegion a) else regionAt rs c := by
  rw [regionAt]
  simp only [regionHolds_fetchRegion]

/-- The map that `placeWord` puts in place when the old one does not let the fetch through (log 15). -/
def State.fetchMap : List Region :=
  s.fetchRegion a :: s.fetchRegion (a + 1) :: s.fetchRegion (a + 2) :: s.fetchRegion (a + 3) :: s.cfg.memMap

/-- The four bytes are in one-byte regions under that map. -/
theorem regionAt_fetchMap {j : Nat} (hj : j < 4) :
    ∃ b, regionAt (s.fetchMap a) (a + BitVec.ofNat 32 j) = some (s.fetchRegion b) := by
  unfold State.fetchMap
  simp only [regionAt_fetchRegion]
  obtain rfl | rfl | rfl | rfl : j = 0 ∨ j = 1 ∨ j = 2 ∨ j = 3 := by omega
  · exact ⟨a, by simp⟩
  · exact ⟨a + 1, by simp⟩
  · exact ⟨a + 2, by simp⟩
  · exact ⟨a + 3, by simp⟩

end

/-- What a fetch needs of the map, whichever of the two maps `placeWord` leaves. -/
theorem State.placeWord_map (s : State) (w : Word) {j : Nat} (hj : j < 4) :
    (s.placeWord w).admitsByte .fetch ((s.placeWord w).pc + BitVec.ofNat 32 j) = true ∧
      (s.placeWord w).deviceByte ((s.placeWord w).pc + BitVec.ofNat 32 j) = false := by
  set a := (s.placeWord w).pc
  by_cases hmap : (s.admits .fetch a 4 && s.ordinary a 4) = true
  · have hcfg : (s.placeWord w).cfg = s.cfg := if_pos hmap
    obtain ⟨hadmits, hordinary⟩ := (Bool.and_eq_true _ _).mp hmap
    simp only [State.admitsByte, State.deviceByte, hcfg]
    exact ⟨(s.admits_eq_true .fetch a 4).1 hadmits j hj, (s.ordinary_eq_true a 4).1 hordinary j hj⟩
  · have hcfg : (s.placeWord w).cfg.memMap = s.fetchMap a := congrArg Config.memMap (if_neg hmap)
    obtain ⟨b, hregion⟩ := regionAt_fetchMap s a hj
    simp only [State.admitsByte, State.deviceByte, hcfg, hregion]
    exact ⟨rfl, rfl⟩

/-- `placeWord` rounds `pc` down to a multiple of 4. -/
theorem State.placeWord_pc_toNat (s : State) (w : Word) : (s.placeWord w).pc.toNat = s.pc.toNat / 4 * 4 := by
  refine (BitVec.toNat_ofNat _ _).trans (Nat.mod_eq_of_lt ?_)
  omega

/-- The placed word is fetched. -/
theorem State.placeWord_fetches (s : State) (w : Word) : Fetches (s.placeWord w) w := by
  have hpc := s.placeWord_pc_toNat w
  refine ⟨by omega, fun j hj => (s.placeWord_map w hj).1, fun j hj => (s.placeWord_map w hj).2, fun j hj hmem => ?_,
    fun j hj => Memory.read?_writeLE s.mem (s.placeWord w).pc w 4 hj (by decide)⟩
  obtain ⟨-, hout⟩ := List.mem_filter.1 hmem
  have hout' : ((s.placeWord w).pc + BitVec.ofNat 32 j).toNat < (s.placeWord w).pc.toNat ∨
      (s.placeWord w).pc.toNat + 4 ≤ ((s.placeWord w).pc + BitVec.ofNat 32 j).toNat :=
    ((Bool.or_eq_true _ _).mp hout).imp of_decide_eq_true of_decide_eq_true
  have hlt := s.pc.isLt
  rw [BitVec.toNat_add, BitVec.toNat_ofNat] at hout'
  omega

/-- No interrupt is taken before the placed word. -/
theorem State.placeWord_noInterrupt (s : State) (w : Word) : NoInterrupt (s.placeWord w) := by
  by_cases hirq : (s.irqPending && s.mie) = true
  · have hhead : (s.placeWord w).irq = false :: s.irq.tail := if_pos hirq
    exact .inr (by simp [State.irqPending, hhead])
  · have hkept : (s.placeWord w).irq = s.irq := if_neg hirq
    rcases Bool.eq_false_or_eq_true s.mie with hm | hm
    · exact .inr (by simpa [State.irqPending, hkept, hm] using hirq)
    · exact .inl hm

end Sys2Proof.Machine

open Sys2Proof Sys2Proof.Machine

/-- Settles O7: what is fetched is decoded and run, in the state that `State.tick` gives. -/
theorem stepRunsTheDecodedInstruction : Obligations.StepRunsTheDecodedInstruction := fun _ _ _ hn hf hd =>
  ⟨step_of_fetches hn hf hd, rfl⟩

/-- Settles O6: a word that decodes would pass the test of the row of its instruction. -/
theorem undefinedEncodingRaisesIllegalInstruction : Obligations.UndefinedEncodingRaisesIllegalInstruction :=
  fun _ _ hn hf hrows => step_raises (State.nextInstr_of_undefined hn hf fun i hd => hrows i (rowMatches_of_decode hd))

/-- Settles O8: one check of R56 after the other. -/
theorem fetchChecksInOrder : Obligations.FetchChecksInOrder := fun s => by
  refine ⟨fun hp he => step_raises (State.nextInstr_of_interrupt hp he), fun hn => ⟨fun ha => ?_, fun ha hm => ?_,
    fun ha hm hstale => ?_, fun b0 b1 b2 b3 hf i hd => ?_⟩⟩
  · exact step_raises (State.nextInstr_of_fetch_raise hn (State.fetch_misaligned ha))
  · exact step_raises (State.nextInstr_of_fetch_raise hn (State.fetch_notAdmitted ha hm))
  · rw [step_of_raise (State.nextInstr_of_fetch_raise hn (State.fetch_stale ha hm hstale)), State.raise_staleFetch]
    rfl
  · obtain ⟨h0, h1, h2, h3⟩ := extract_bytes b0 b1 b2 b3
    refine ⟨?_, ?_, ?_, ?_, step_of_fetches hn hf hd⟩
    · simpa [h0] using hf.bytes 0 (by decide)
    · simpa [h1] using hf.bytes 1 (by decide)
    · simpa [h2] using hf.bytes 2 (by decide)
    · simpa [h3] using hf.bytes 3 (by decide)

/-- Settles O9: the two refusals stand after the checks of R56, that of device bytes first. -/
theorem fetchOfDeviceOrUnloadedBytesIsRefused : Obligations.FetchOfDeviceOrUnloadedBytesIsRefused :=
  fun _ hn ha hm hfresh =>
    ⟨fun ho => step_of_refuse (State.nextInstr_of_fetch_refuse hn (State.fetch_device ha hm hfresh ho)),
      fun ho hnone => step_of_refuse (State.nextInstr_of_fetch_refuse hn (State.fetch_unloaded ha hm hfresh ho hnone))⟩

/-- Settles O10: from `mie = 0`, neither trap entry nor an instruction other than `mret` sets `mie`. -/
theorem interruptIsTakenOnlyWhenEnabled : Obligations.InterruptIsTakenOnlyWhenEnabled := by
  refine ⟨fun s hp he => step_raises (State.nextInstr_of_interrupt hp he), fun s hm => ?_, fun s t hm h hset => ?_, rfl⟩
  · rw [step, step, State.nextInstr_of_mie_false hm (false :: s.irq.tail)]
    rfl
  · rcases step_next h with ⟨-, rfl⟩ | ⟨i, hnext, hexec⟩
    · simp at hset
    · by_cases hi : i = .mret
      · exact hi ▸ hnext
      · rcases (exec_next hexec).control hi with ⟨-, hmie, -⟩ | ⟨-, rfl⟩
        · rw [hmie, State.tick_mie, hm] at hset
          cases hset
        · simp at hset

/-- Settles O56: the placed word is fetched and no interrupt comes first, so the step runs it. -/
theorem withFetchWordIsRunNext : Obligations.WithFetchWordIsRunNext := fun s w i hd => by
  have hword : BitVec.ofNat 32 (w % 2 ^ 32) = BitVec.ofNat 32 w := BitVec.eq_of_toNat_eq (by simp)
  rw [State.withFetchWord, hword]
  exact step_of_fetches (s.placeWord_noInterrupt _) (s.placeWord_fetches _) hd

end

section
/-! Exceptions (`60_exceptions.md` R241 to R248): what an instruction does before `TRAP_MODE` plays a part, whence that the two
modes agree, that only the listed exceptions are raised, and where `pc` is left. -/

namespace Sys2Proof.Machine

/-! ### The trap mode set -/

section
variable (s : State) (m : TrapMode)


theorem State.inMode_readLE (a : Word) (n : Nat) : (s.inMode m).readLE a n = s.readLE a n := by
  induction n generalizing a with
  | zero => rfl
  | succ n ih => rw [State.readLE, State.readLE, ih]; rfl

theorem State.inMode_memRead (a : Word) (n : Nat) : (s.inMode m).memRead a n = s.memRead a n := by
  rw [State.memRead, State.memRead, State.inMode_readLE]
  rfl

theorem State.inMode_setX (rd : Reg) (v : Word) : (s.inMode m).setX rd v = (s.setX rd v).inMode m := by
  unfold State.setX
  split <;> rfl

end

/-! ### What an instruction does, before the trap mode plays a part -/

/-- In every trap mode, `i` in `s` goes on as `x` says: to a next state with the `pc` of R26, to an exception that R241 lists
for `i`, or to a refusal. -/
structure Performs (i : Instr) (s : State) (x : Access State) : Prop where
  exec_eq : ∀ m, exec i (s.inMode m) = (s.inMode m).andThen x fun t => .next (t.inMode m)
  pc_eq : ∀ t, x = .ok t → t.pc = nextPc s i
  listed : ∀ e, x = .raise e → MayRaise s i e

section
variable {i : Instr} {s : State}

theorem Performs.of_ok {t : State} (h : ∀ m, exec i (s.inMode m) = .next (t.inMode m)) (hpc : t.pc = nextPc s i) :
    Performs i s (.ok t) where
  exec_eq := h
  pc_eq _ ht := by cases ht; exact hpc
  listed _ he := by cases he

theorem Performs.of_raise {e : Exception} (h : ∀ m, exec i (s.inMode m) = (s.inMode m).raise e) (hlisted : MayRaise s i e) :
    Performs i s (.raise e) where
  exec_eq := h
  pc_eq _ ht := by cases ht
  listed _ he := by cases he; exact hlisted

theorem Performs.of_refuse {r : Refusal} (h : ∀ m, exec i (s.inMode m) = .refused r) : Performs i s (.refuse r) where
  exec_eq := h
  pc_eq _ ht := by cases ht
  listed _ he := by cases he

/-- An instruction with a register result `v`, which does not depend on the trap mode. -/
theorem Performs.of_writeRd {rd : Reg} (v : State → Word) (h : ∀ s, exec i s = s.writeRd rd (v s))
    (hv : ∀ m, v (s.inMode m) = v s) (hpc : nextPc s i = s.pc + 4) : ∃ x, Performs i s x := by
  refine ⟨.ok (s.setX rd (v s)).advance, .of_ok (fun m => ?_) (by simp [hpc])⟩
  rw [h, hv, State.writeRd, State.inMode_setX]
  rfl

/-- An instruction that transfers control (R160). -/
theorem Performs.of_transfer {after : State} (target : Word)
    (h : ∀ m, exec i (s.inMode m) = (s.inMode m).transfer target (after.inMode m)) (hpc : nextPc s i = target)
    (hlisted : target.toNat % 4 ≠ 0 → MayRaise s i (.instructionAddressMisaligned target)) : ∃ x, Performs i s x := by
  by_cases ha : target.toNat % 4 = 0
  · refine ⟨.ok { after with pc := target }, .of_ok (fun m => ?_) hpc.symm⟩
    rw [h, State.transfer_aligned _ _ ha]
    rfl
  · refine ⟨_, .of_raise (fun m => ?_) (hlisted ha)⟩
    rw [h, State.transfer_misaligned _ _ ha]

/-- A branch, with the condition of its rule in the form that R241 and R26 use. -/
theorem Performs.of_branch {c : Word → Word → Bool} {rs1 rs2 : Reg} {dist : BitVec 13} {taken : Prop} [Decidable taken]
    (h : ∀ s, exec i s = execBranch c rs1 rs2 dist s) (hc : c (s.x rs1) (s.x rs2) = true ↔ taken)
    (hpc : nextPc s i = if taken then s.relTarget dist else s.pc + 4)
    (hlisted : ∀ e, BranchMayRaise s taken dist e → MayRaise s i e) : ∃ x, Performs i s x := by
  by_cases ht : taken
  · refine Performs.of_transfer (after := s) (s.relTarget dist) (fun m => ?_) (by rw [hpc, if_pos ht])
      fun ha => hlisted _ ⟨ht, ha, rfl⟩
    rw [h, execBranch]
    exact if_pos (hc.2 ht)
  · refine ⟨.ok s.advance, .of_ok (fun m => ?_) (by rw [hpc, if_neg ht]; rfl)⟩
    rw [h, execBranch]
    exact if_neg (mt hc.1 ht)

/-- What `MemRead` raises (R241). -/
theorem State.memRead_raise {a : Word} {n : Nat} {e : Exception} (h : s.memRead a n = .raise e) :
    LoadMayRaise s a n e := by
  by_cases ha : a.toNat % n = 0
  · by_cases hm : Admitted s .read a n
    · by_cases ho : Ordinary s a n
      · rw [State.memRead_ok ha hm ho] at h; cases h
      · rw [State.memRead_device ha hm ho] at h; cases h
    · rw [State.memRead_notAdmitted ha hm] at h; cases h; exact .inr ⟨hm, rfl⟩
  · rw [State.memRead_misaligned ha] at h; cases h; exact .inl ⟨ha, rfl⟩

/-- What `MemWrite` raises (R241). -/
theorem State.memWrite_raise {a : Word} {n : Nat} {v : BitVec (8 * n)} {e : Exception} (h : s.memWrite a n v = .raise e) :
    StoreMayRaise s a n e := by
  by_cases ha : a.toNat % n = 0
  · by_cases hm : Admitted s .write a n
    · by_cases ho : Ordinary s a n
      · rw [State.memWrite_ok ha hm ho] at h; cases h
      · rw [State.memWrite_device ha hm ho] at h; cases h
    · rw [State.memWrite_notAdmitted ha hm] at h; cases h; exact .inr ⟨hm, rfl⟩
  · rw [State.memWrite_misaligned ha] at h; cases h; exact .inl ⟨ha, rfl⟩

/-- An access whose value is taken through `f`. -/
def Access.map {α β : Type} (f : α → β) : Access α → Access β
  | .ok v => .ok (f v)
  | .raise e => .raise e
  | .refuse r => .refuse r

/-- A store is made in the same way in both trap modes. -/
theorem State.inMode_memWrite (s : State) (m : TrapMode) (a : Word) (n : Nat) (v : BitVec (8 * n)) :
    (s.inMode m).memWrite a n v = (s.memWrite a n v).map fun t => t.inMode m := by
  by_cases ha : a.toNat % n = 0
  · by_cases hm : Admitted s .write a n
    · by_cases ho : Ordinary s a n
      · rw [State.memWrite_ok ha hm ho, State.memWrite_ok (s := s.inMode m) ha hm ho]; rfl
      · rw [State.memWrite_device ha hm ho, State.memWrite_device (s := s.inMode m) ha hm ho]; rfl
    · rw [State.memWrite_notAdmitted ha hm, State.memWrite_notAdmitted (s := s.inMode m) ha hm]; rfl
  · rw [State.memWrite_misaligned (s := s.inMode m) ha, State.memWrite_misaligned (s := s) ha]; rfl

theorem Performs.of_load {n : Nat} {ext : BitVec (8 * n) → Word} {rd rs1 : Reg} {imm : BitVec 12}
    (h : ∀ s, exec i s = execLoad n ext rd rs1 imm s) (hpc : nextPc s i = s.pc + 4)
    (hlisted : ∀ e, LoadMayRaise s (s.effAddr rs1 imm) n e → MayRaise s i e) : ∃ x, Performs i s x := by
  have hexec : ∀ m, exec i (s.inMode m) =
      (s.inMode m).andThen (s.memRead (s.effAddr rs1 imm) n) fun v => (s.inMode m).writeRd rd (ext v) := fun m => by
    rw [h, execLoad, ← s.inMode_memRead m]
    rfl
  cases hread : s.memRead (s.effAddr rs1 imm) n with
  | ok v =>
    refine ⟨.ok (s.setX rd (ext v)).advance, .of_ok (fun m => ?_) (by simp [hpc])⟩
    rw [hexec, hread, State.andThen, State.writeRd, State.inMode_setX]
    rfl
  | raise e => exact ⟨_, .of_raise (fun m => by rw [hexec, hread]; rfl) (hlisted e (State.memRead_raise hread))⟩
  | refuse r => exact ⟨_, .of_refuse fun m => by rw [hexec, hread]; rfl⟩

theorem Performs.of_store {n : Nat} {rs2 rs1 : Reg} {imm : BitVec 12}
    (h : ∀ s, exec i s = execStore n rs2 rs1 imm s) (hpc : nextPc s i = s.pc + 4)
    (hlisted : ∀ e, StoreMayRaise s (s.effAddr rs1 imm) n e → MayRaise s i e) : ∃ x, Performs i s x := by
  have hexec : ∀ m, exec i (s.inMode m) = (s.inMode m).andThen
      ((s.inMode m).memWrite (s.effAddr rs1 imm) n ((s.x rs2).setWidth (8 * n))) fun t => .next t.advance := fun m => h _
  simp only [State.inMode_memWrite] at hexec
  cases hwrite : s.memWrite (s.effAddr rs1 imm) n ((s.x rs2).setWidth (8 * n)) with
  | ok t =>
    obtain ⟨-, -, -, rfl⟩ := State.memWrite_eq_ok hwrite
    exact ⟨.ok (s.store _ _ _).advance, .of_ok (fun m => by rw [hexec, hwrite]; rfl) (by simp [hpc])⟩
  | raise e => exact ⟨_, .of_raise (fun m => by rw [hexec, hwrite]; rfl) (hlisted e (State.memWrite_raise hwrite))⟩
  | refuse r => exact ⟨_, .of_refuse fun m => by rw [hexec, hwrite]; rfl⟩

end

/-! ### The comparisons of the branches, as the rules state them -/

theorem ltSigned_eq_true (a b : Word) : ltSigned a b = true ↔ signed a < signed b := decide_eq_true_iff

theorem not_ltSigned_eq_true (a b : Word) : (!ltSigned a b) = true ↔ signed a ≥ signed b := by
  rw [Bool.not_eq_true', ← Bool.not_eq_true, ltSigned_eq_true, not_lt]

theorem ltUnsigned_eq_true (a b : Word) : ltUnsigned a b = true ↔ unsigned a < unsigned b := decide_eq_true_iff

theorem not_ltUnsigned_eq_true (a b : Word) : (!ltUnsigned a b) = true ↔ unsigned a ≥ unsigned b := by
  rw [Bool.not_eq_true', ← Bool.not_eq_true, ltUnsigned_eq_true, not_lt]

theorem beq_word_eq_true (a b : Word) : (a == b) = true ↔ a = b := beq_iff_eq

theorem not_beq_word_eq_true (a b : Word) : (!(a == b)) = true ↔ a ≠ b := by simp

/-- Every instruction, in every state. -/
theorem exists_performs (i : Instr) (s : State) : ∃ x, Performs i s x := by
  cases i
  case beq =>
    exact Performs.of_branch (c := fun a b => a == b) (fun _ => rfl) (beq_word_eq_true _ _) rfl fun _ h => h
  case bne =>
    exact Performs.of_branch (c := fun a b => !(a == b)) (fun _ => rfl) (not_beq_word_eq_true _ _) rfl fun _ h => h
  case blt =>
    exact Performs.of_branch (c := ltSigned) (fun _ => rfl) (ltSigned_eq_true _ _) rfl fun _ h => h
  case bge =>
    exact Performs.of_branch (c := fun a b => !ltSigned a b) (fun _ => rfl) (not_ltSigned_eq_true _ _) rfl fun _ h => h
  case bltu =>
    exact Performs.of_branch (c := ltUnsigned) (fun _ => rfl) (ltUnsigned_eq_true _ _) rfl fun _ h => h
  case bgeu =>
    exact Performs.of_branch (c := fun a b => !ltUnsigned a b) (fun _ => rfl) (not_ltUnsigned_eq_true _ _) rfl fun _ h => h
  case jal rd dist =>
    refine Performs.of_transfer (after := s.setX rd s.link) (s.relTarget dist) (fun m => ?_) rfl fun ha => ⟨ha, rfl⟩
    rw [← State.inMode_setX]
    rfl
  case jalr rd rs1 imm =>
    refine Performs.of_transfer (after := s.setX rd s.link) (s.jalrTarget rs1 imm) (fun m => ?_) rfl fun ha => ⟨ha, rfl⟩
    rw [← State.inMode_setX]
    rfl
  case mret => exact Performs.of_transfer (after := s.trapReturn) s.mepc (fun _ => rfl) rfl fun ha => ⟨ha, rfl⟩
  case lb | lh | lw | lbu | lhu => exact Performs.of_load (fun _ => rfl) rfl fun _ h => h
  case sb | sh | sw => exact Performs.of_store (fun _ => rfl) rfl fun _ h => h
  case ecall => exact ⟨_, .of_raise (fun _ => rfl) rfl⟩
  case fence => exact ⟨_, .of_ok (t := s.advance) (fun _ => rfl) rfl⟩
  case fenceI => exact ⟨_, .of_ok (t := { s.advance with fetchDirty := [] }) (fun _ => rfl) rfl⟩
  all_goals exact Performs.of_writeRd _ (fun _ => rfl) (fun _ => rfl) rfl

/-! ### What follows for the two modes -/

section
variable {i : Instr} {s : State} {x : Access State}

/-- `StaleFetch` is no exception of an instruction (R241). -/
theorem MayRaise.endsRun_eq_false {e : Exception} (h : MayRaise s i e) : e.endsRun = false := by
  cases i
  case beq | bne | blt | bge | bltu | bgeu => obtain ⟨-, -, rfl⟩ := h; rfl
  case jal | jalr | mret => obtain ⟨-, rfl⟩ := h; rfl
  case lb | lh | lw | lbu | lhu | sb | sh | sw => rcases h with ⟨-, rfl⟩ | ⟨-, rfl⟩ <;> rfl
  case ecall => cases h; rfl
  all_goals exact h.elim

theorem Performs.exec_self (h : Performs i s x) :
    exec i s = s.andThen x fun t => .next (t.inMode s.cfg.trapMode) := h.exec_eq s.cfg.trapMode

/-- A fault of an instruction is a listed exception, raised at its `pc`. -/
theorem Performs.of_fault (h : Performs i s x) {e : Exception} {p : Word} (hf : exec i s = .fault (.trap e p)) :
    x = .raise e ∧ p = s.pc := by
  rw [h.exec_self] at hf
  cases x with
  | ok t => cases hf
  | raise e' =>
    have hr := State.raise_fault hf
    cases hr
    exact ⟨rfl, rfl⟩
  | refuse r => cases hf

/-- Under `TRAP_MODE = fault` a next state is one that nothing was raised on the way to. -/
theorem Performs.of_next (h : Performs i s x) (hmode : s.cfg.trapMode = .fault) {t : State} (ht : exec i s = .next t) :
    ∃ u, x = .ok u ∧ t = u.inMode .fault := by
  rw [h.exec_self, hmode] at ht
  rcases State.andThen_next ht with ⟨u, hu, hnext⟩ | ⟨hvector, -⟩
  · cases hnext; exact ⟨u, hu, rfl⟩
  · simp [hmode] at hvector

theorem exec_fault {e : Exception} {p : Word} (h : exec i s = .fault (.trap e p)) : p = s.pc ∧ MayRaise s i e := by
  obtain ⟨x, hx⟩ := exists_performs i s
  obtain ⟨hraise, hp⟩ := hx.of_fault h
  exact ⟨hp, hx.listed e hraise⟩

/-- An exception that ends the run under `TRAP_MODE = fault` enters the trap under `vector` (R247). -/
theorem State.raise_inMode_vector (s : State) {e : Exception} (he : e.endsRun = false) :
    (s.inMode .vector).raise e = .next (s.inMode .vector).trapEntry := by
  rw [State.raise_eq, if_pos ⟨rfl, he⟩]

theorem exec_fault_inMode {e : Exception} {p : Word} (h : exec i s = .fault (.trap e p)) :
    ∃ t, exec i (s.inMode .vector) = .next t ∧ TrapEntered (s.inMode .vector) t := by
  obtain ⟨x, hx⟩ := exists_performs i s
  obtain ⟨rfl, -⟩ := hx.of_fault h
  refine ⟨_, ?_, State.trapEntry_entered _⟩
  rw [hx.exec_eq]
  exact s.raise_inMode_vector (hx.listed e rfl).endsRun_eq_false

theorem exec_next_inMode (hmode : s.cfg.trapMode = .fault) {t : State} (h : exec i s = .next t) :
    exec i (s.inMode .vector) = .next (t.inMode .vector) := by
  obtain ⟨x, hx⟩ := exists_performs i s
  obtain ⟨u, rfl, rfl⟩ := hx.of_next hmode h
  exact hx.exec_eq .vector

/-- A fault of a step is that of its start or that of its instruction. -/
theorem step_fault {e : Exception} {p : Word} (h : step s = .fault (.trap e p)) :
    s.nextInstr = .raise e ∧ p = s.pc ∨ ∃ i, s.nextInstr = .ok i ∧ exec i s.tick = .fault (.trap e p) := by
  rw [step] at h
  cases hnext : s.nextInstr with
  | ok i => rw [hnext] at h; exact .inr ⟨i, rfl, h⟩
  | raise e' =>
    rw [hnext] at h
    have hr := State.raise_fault h
    cases hr
    exact .inl ⟨rfl, rfl⟩
  | refuse r => rw [hnext] at h; cases h

end

end Sys2Proof.Machine

open Sys2Proof Sys2Proof.Machine

/-- Settles O19: nothing was raised, so the next state is the one `Performs` gives the `pc` of. -/
theorem everyInstructionAdvancesPc : Obligations.EveryInstructionAdvancesPc := fun i s t hmode h => by
  obtain ⟨x, hx⟩ := exists_performs i s
  obtain ⟨u, hok, rfl⟩ := hx.of_next hmode h
  exact hx.pc_eq u hok

/-- Settles O21: a fault of `exec` is an exception that `Performs` has in the table. -/
theorem onlyTheListedExceptionsAreRaised : Obligations.OnlyTheListedExceptionsAreRaised := fun _ _ _ _ h =>
  (exec_fault h).2

/-- Settles O20: what is done before the mode plays a part is the same, and only `StaleFetch`, which no instruction raises,
ends the run in both modes. -/
theorem exceptionsArePrecise : Obligations.ExceptionsArePrecise := by
  refine ⟨fun i s hmode => ⟨fun e p h => ⟨(exec_fault h).1, exec_fault_inMode h⟩, fun t h => exec_next_inMode hmode h⟩,
    fun s hmode => ⟨fun e p h hstale => ?_, fun p q h => ?_, fun t h => ?_⟩⟩
  · rcases step_fault h with ⟨hnext, rfl⟩ | ⟨i, hnext, hexec⟩
    · have he : e.endsRun = false := by
        rw [← Bool.not_eq_true, Exception.endsRun_eq]
        rintro ⟨q, hq⟩
        exact hstale q hq
      refine ⟨rfl, _, ?_, State.trapEntry_entered _⟩
      rw [step_of_raise (s := s.inMode .vector) hnext]
      exact s.tick.raise_inMode_vector he
    · refine ⟨(exec_fault hexec).1, ?_⟩
      rw [step_of_ok (s := s.inMode .vector) hnext]
      exact exec_fault_inMode hexec
  · rcases step_fault h with ⟨hnext, -⟩ | ⟨i, -, hexec⟩
    · rw [step_of_raise (s := s.inMode .vector) hnext, step_of_raise hnext, State.raise_staleFetch, State.raise_staleFetch]
      rfl
    · have he := (exec_fault hexec).2.endsRun_eq_false
      simp [Exception.endsRun] at he
  · rcases step_next h with ⟨hvector, -⟩ | ⟨i, hnext, hexec⟩
    · simp [hmode] at hvector
    · rw [step_of_ok (s := s.inMode .vector) hnext]
      exact exec_next_inMode (s := s.tick) hmode hexec

/-- Settles O22: `mret` returns to the `mepc` that trap entry saved, which is aligned. -/
theorem trapEntryThenMretRestores : Obligations.TrapEntryThenMretRestores := fun s t e _ ha h => by
  obtain ⟨-, -, rfl⟩ := State.raise_next h
  refine ⟨{ s.trapEntry.trapReturn with pc := s.pc }, ?_, rfl, rfl, rfl, rfl, fun _ => rfl, ⟨fun _ => rfl, rfl⟩, ⟨rfl, rfl⟩⟩
  exact State.transfer_aligned s.trapEntry s.trapEntry.trapReturn ha

end

section
/-! Registers an instruction does not name (`10_state.md` R22): two states that differ in one such register give the same
outcome, up to that register. -/

namespace Sys2Proof.Machine

/-! ### The operations of the instructions whose operation is not a named function -/

section
variable (rd rs1 rs2 : Reg) (dist : BitVec 13) (s : State)

theorem exec_bne : exec (.bne rs1 rs2 dist) s = execBranch (fun a b => !(a == b)) rs1 rs2 dist s := rfl

theorem exec_bge : exec (.bge rs1 rs2 dist) s = execBranch (fun a b => !ltSigned a b) rs1 rs2 dist s := rfl

theorem exec_bgeu : exec (.bgeu rs1 rs2 dist) s = execBranch (fun a b => !ltUnsigned a b) rs1 rs2 dist s := rfl

theorem exec_mul :
    exec (.mul rd rs1 rs2) s = execBinary (fun a b => trunc32 (unsigned a * unsigned b)) rd rs1 rs2 s := rfl

end

/-! ### Two states that differ in one register -/

section
variable {i : Instr} {r : Reg} {s s' : State}

theorem sameButRegister_setX (s : State) (r : Reg) (v : Word) : SameButRegister r s (s.setX r v) :=
  ⟨fun _ hq => s.x_setX_other hq v, by simp, by simp, by simp, ⟨by simp, by simp, by simp⟩, ⟨by simp, by simp⟩⟩

/-- Next states in which an unnamed register and the destination are as `SameEffect` asks when no trap was entered. -/
theorem SameEffect.of_completed {t t' : State} (h : SameButRegister r t t') (hrd : i.rd? = some r → t'.x r = t.x r)
    (hkept : i.rd? ≠ some r → t.x r = s.x r ∧ t'.x r = s'.x r) : SameEffect i r s s' t t' :=
  ⟨h, fun hr => .inl (hrd hr), hkept⟩

/-- An instruction that writes no register: a change of the rest of the state that is the same in both. -/
theorem SameEffect.of_no_rd {t t' : State} (hi : i.rd? = none) (h : SameButRegister r t t')
    (hx : t.x r = s.x r) (hx' : t'.x r = s'.x r) : SameEffect i r s s' t t' :=
  .of_completed h (fun hr => by simp [hi] at hr) fun _ => ⟨hx, hx'⟩

/-- An instruction that writes `v` to its destination in both states. -/
theorem sameEffect_setX (h : SameButRegister r s s') {rd : Reg} (hi : i.rd? = some rd) (v p : Word) :
    SameEffect i r s s' { s.setX rd v with pc := p } { s'.setX rd v with pc := p } := by
  obtain ⟨hx, hpc, hmem, hdirty, ⟨hmepc, hmie, hmpie⟩, hcfg, hirq⟩ := h
  refine .of_completed ⟨fun q hq => ?_, rfl, by simp [hmem], by simp [hdirty], ⟨by simp [hmepc], by simp [hmie],
    by simp [hmpie]⟩, ⟨by simp [hcfg], by simp [hirq]⟩⟩ (fun hr => ?_) fun hr => ?_
  · simp only [State.withPc_x, State.x_setX, hx q hq]
  · obtain rfl : rd = r := Option.some.inj (hi.symm.trans hr)
    by_cases hzero : rd = 0
    · subst hzero; rfl
    · simp only [State.withPc_x, State.x_setX_same _ hzero]
  · have hne : r ≠ rd := fun e => hr (e ▸ hi)
    simp only [State.withPc_x, State.x_setX_other _ hne, and_self]

/-- An exception raised in both states: the same stop, or trap entry in both. -/
theorem sameOutcome_raise (h : SameButRegister r s s') (e : Exception) :
    SameOutcome (SameEffect i r s s') (s.raise e) (s'.raise e) := by
  obtain ⟨hx, hpc, hmem, hdirty, ⟨hmepc, hmie, hmpie⟩, hcfg, hirq⟩ := h
  rw [State.raise_eq, State.raise_eq, hcfg, hpc]
  split
  · next hvector =>
    have hcontrol : SameControl s.trapEntry s'.trapEntry := ⟨hpc, rfl, hmie⟩
    exact ⟨⟨hx, congrArg Config.trapVector hcfg, hmem, hdirty, hcontrol, hcfg, hirq⟩,
      fun _ => .inr ⟨hvector.1, s.trapEntry_entered, s'.trapEntry_entered⟩, fun _ => ⟨rfl, rfl⟩⟩
  · rfl

/-- A register result with the same value in both states. -/
theorem sameOutcome_writeRd (h : SameButRegister r s s') {rd : Reg} (hi : i.rd? = some rd) {v v' : Word} (hv : v' = v) :
    SameOutcome (SameEffect i r s s') (s.writeRd rd v) (s'.writeRd rd v') := by
  have heffect := sameEffect_setX h hi v (s.pc + 4)
  obtain ⟨-, hpc, -⟩ := h
  subst hv
  have hadvance : (s.setX rd v').advance = { s.setX rd v' with pc := s.pc + 4 } := by
    rw [State.advance, State.setX_pc]
  have hadvance' : (s'.setX rd v').advance = { s'.setX rd v' with pc := s.pc + 4 } := by
    rw [State.advance, State.setX_pc, hpc]
  rw [State.writeRd, State.writeRd, hadvance, hadvance']
  exact heffect

/-- A transfer to the same target in both states. -/
theorem sameOutcome_transfer (h : SameButRegister r s s') {target target' : Word} {after after' : State}
    (htarget : target' = target)
    (heffect : SameEffect i r s s' { after with pc := target } { after' with pc := target }) :
    SameOutcome (SameEffect i r s s') (s.transfer target after) (s'.transfer target' after') := by
  subst htarget
  by_cases ha : target'.toNat % 4 = 0
  · rw [s.transfer_aligned after ha, s'.transfer_aligned after' ha]
    exact heffect
  · rw [s.transfer_misaligned after ha, s'.transfer_misaligned after' ha]
    exact sameOutcome_raise h _

theorem SameButRegister.withPc (h : SameButRegister r s s') (p : Word) :
    SameButRegister r { s with pc := p } { s' with pc := p } := by
  obtain ⟨hx, -, hrest⟩ := h
  exact ⟨hx, rfl, hrest⟩

theorem SameButRegister.advance (h : SameButRegister r s s') : SameButRegister r s.advance s'.advance := by
  obtain ⟨hx, hpc, hrest⟩ := h
  exact ⟨hx, congrArg (· + 4) hpc, hrest⟩

/-- A branch on sources that read the same in both states. -/
theorem sameOutcome_branch (h : SameButRegister r s s') {c : Word → Word → Bool} {rs1 rs2 : Reg} {dist : BitVec 13}
    (hexec : ∀ s, exec i s = execBranch c rs1 rs2 dist s) (hi : i.rd? = none) (hr : r ∉ [rs1, rs2]) :
    SameOutcome (SameEffect i r s s') (exec i s) (exec i s') := by
  obtain ⟨h1, h2⟩ : r ≠ rs1 ∧ r ≠ rs2 := by simpa using hr
  have hpc : s'.pc = s.pc := h.2.1
  rw [hexec, hexec, execBranch, execBranch, h.1 rs1 h1.symm, h.1 rs2 h2.symm]
  split
  · refine sameOutcome_transfer h (by rw [State.relTarget, State.relTarget, hpc]) ?_
    exact .of_no_rd hi (h.withPc _) rfl rfl
  · exact SameEffect.of_no_rd hi h.advance rfl rfl

/-- Memory reads the same. -/
theorem SameButRegister.readLE (h : SameButRegister r s s') (a : Word) (n : Nat) : s'.readLE a n = s.readLE a n := by
  obtain ⟨-, -, hmem, -⟩ := h
  induction n generalizing a with
  | zero => rfl
  | succ n ih => rw [State.readLE, State.readLE, ih, State.byte, State.byte, State.byte?, State.byte?, hmem]

/-- The map and its devices are the same. -/
theorem SameButRegister.admits (h : SameButRegister r s s') (k : AccessKind) (a : Word) (n : Nat) :
    s'.admits k a n = s.admits k a n := by
  obtain ⟨-, -, -, -, -, hcfg, -⟩ := h
  have hbyte : s'.admitsByte k = s.admitsByte k := funext fun b => by rw [State.admitsByte, State.admitsByte, hcfg]
  rw [State.admits, State.admits, hbyte]

theorem SameButRegister.ordinary (h : SameButRegister r s s') (a : Word) (n : Nat) : s'.ordinary a n = s.ordinary a n := by
  obtain ⟨-, -, -, -, -, hcfg, -⟩ := h
  have hbyte : s'.deviceByte = s.deviceByte := funext fun b => by rw [State.deviceByte, State.deviceByte, hcfg]
  rw [State.ordinary, State.ordinary, hbyte]

theorem SameButRegister.memRead (h : SameButRegister r s s') (a : Word) (n : Nat) : s'.memRead a n = s.memRead a n := by
  rw [State.memRead, State.memRead, h.admits, h.ordinary, h.readLE]

/-- A load from an address that is the same in both states. -/
theorem sameOutcome_load (h : SameButRegister r s s') {n : Nat} {ext : BitVec (8 * n) → Word} {rd rs1 : Reg}
    {imm : BitVec 12} (hexec : ∀ s, exec i s = execLoad n ext rd rs1 imm s) (hi : i.rd? = some rd) (hr : r ∉ [rs1]) :
    SameOutcome (SameEffect i r s s') (exec i s) (exec i s') := by
  have h1 : rs1 ≠ r := fun e => hr (by simp [e])
  rw [hexec, hexec, execLoad, execLoad, State.effAddr, State.effAddr, h.1 rs1 h1, h.memRead]
  cases s.memRead (s.x rs1 + sext imm) n with
  | ok v => exact sameOutcome_writeRd h hi rfl
  | raise e => exact sameOutcome_raise h e
  | refuse q => rfl

theorem SameButRegister.store (h : SameButRegister r s s') (a : Word) (n : Nat) (v : BitVec (8 * n)) :
    SameButRegister r (s.store a n v) (s'.store a n v) := by
  obtain ⟨hx, hpc, hmem, hdirty, hrest⟩ := h
  exact ⟨hx, hpc, by simp [hmem], by simp [hdirty], hrest⟩

/-- A store of the same value at the same address. -/
theorem sameOutcome_store (h : SameButRegister r s s') {n : Nat} {rs2 rs1 : Reg} {imm : BitVec 12}
    (hexec : ∀ s, exec i s = execStore n rs2 rs1 imm s) (hi : i.rd? = none) (hr : r ∉ [rs1, rs2]) :
    SameOutcome (SameEffect i r s s') (exec i s) (exec i s') := by
  obtain ⟨h1, h2⟩ : r ≠ rs1 ∧ r ≠ rs2 := by simpa using hr
  rw [hexec, hexec, execStore, execStore, State.effAddr, State.effAddr, h.1 rs1 h1.symm, h.1 rs2 h2.symm]
  simp only [State.memWrite, h.admits, h.ordinary]
  split
  · exact sameOutcome_raise h _
  · split
    · exact sameOutcome_raise h _
    · split
      · rfl
      · exact SameEffect.of_no_rd hi (h.store _ n _).advance rfl rfl

/-- A register-register instruction. -/
theorem sameOutcome_binary (h : SameButRegister r s s') {f : Word → Word → Word} {rd rs1 rs2 : Reg}
    (hexec : ∀ s, exec i s = execBinary f rd rs1 rs2 s) (hi : i.rd? = some rd) (hr : r ∉ [rs1, rs2]) :
    SameOutcome (SameEffect i r s s') (exec i s) (exec i s') := by
  obtain ⟨h1, h2⟩ : r ≠ rs1 ∧ r ≠ rs2 := by simpa using hr
  rw [hexec, hexec]
  exact sameOutcome_writeRd h hi (by rw [h.1 rs1 h1.symm, h.1 rs2 h2.symm])

/-- A register-immediate instruction. -/
theorem sameOutcome_immediate (h : SameButRegister r s s') {f : Word → Word → Word} {rd rs1 : Reg} {imm : BitVec 12}
    (hexec : ∀ s, exec i s = execImmediate f rd rs1 imm s) (hi : i.rd? = some rd) (hr : r ∉ [rs1]) :
    SameOutcome (SameEffect i r s s') (exec i s) (exec i s') := by
  have h1 : rs1 ≠ r := fun e => hr (by simp [e])
  rw [hexec, hexec]
  exact sameOutcome_writeRd h hi (by rw [h.1 rs1 h1])

/-- A constant shift. -/
theorem sameOutcome_shiftImmediate (h : SameButRegister r s s') {f : Word → Nat → Word} {rd rs1 : Reg} {shamt : BitVec 5}
    (hexec : ∀ s, exec i s = execShiftImmediate f rd rs1 shamt s) (hi : i.rd? = some rd) (hr : r ∉ [rs1]) :
    SameOutcome (SameEffect i r s s') (exec i s) (exec i s') := by
  have h1 : rs1 ≠ r := fun e => hr (by simp [e])
  rw [hexec, hexec]
  exact sameOutcome_writeRd h hi (by rw [h.1 rs1 h1])

/-- Every instruction, in two states that differ in a register it does not read. -/
theorem sameOutcome_exec (h : SameButRegister r s s') (hr : r ∉ i.sources) :
    SameOutcome (SameEffect i r s s') (exec i s) (exec i s') := by
  have hpc : s'.pc = s.pc := h.2.1
  cases i
  case lui rd imm => exact sameOutcome_writeRd h rfl rfl
  case auipc rd imm => exact sameOutcome_writeRd h rfl (by rw [hpc])
  case jal rd dist =>
    refine sameOutcome_transfer h (by rw [State.relTarget, State.relTarget, hpc]) ?_
    rw [show s'.link = s.link from congrArg (· + 4) hpc]
    exact sameEffect_setX h rfl _ _
  case jalr rd rs1 imm =>
    have h1 : rs1 ≠ r := fun e => hr (by simp [Instr.sources, e])
    refine sameOutcome_transfer h (by rw [State.jalrTarget, State.jalrTarget, h.1 rs1 h1]) ?_
    rw [show s'.link = s.link from congrArg (· + 4) hpc]
    exact sameEffect_setX h rfl _ _
  case bne rs1 rs2 dist => exact sameOutcome_branch h (exec_bne rs1 rs2 dist) rfl hr
  case bge rs1 rs2 dist => exact sameOutcome_branch h (exec_bge rs1 rs2 dist) rfl hr
  case bgeu rs1 rs2 dist => exact sameOutcome_branch h (exec_bgeu rs1 rs2 dist) rfl hr
  case beq | blt | bltu => exact sameOutcome_branch h (fun _ => rfl) rfl hr
  case lb | lh | lw | lbu | lhu => exact sameOutcome_load h (fun _ => rfl) rfl hr
  case sb | sh | sw => exact sameOutcome_store h (fun _ => rfl) rfl hr
  case slti rd rs1 imm => exact sameOutcome_immediate h (exec_slti rd rs1 imm) rfl hr
  case sltiu rd rs1 imm => exact sameOutcome_immediate h (exec_sltiu rd rs1 imm) rfl hr
  case addi | xori | ori | andi => exact sameOutcome_immediate h (fun _ => rfl) rfl hr
  case slli | srli | srai => exact sameOutcome_shiftImmediate h (fun _ => rfl) rfl hr
  case mret =>
    obtain ⟨hx, -, hmem, hdirty, ⟨hmepc, hmie, hmpie⟩, hcfg, hirq⟩ := id h
    refine sameOutcome_transfer h hmepc (.of_no_rd rfl ?_ rfl rfl)
    exact ⟨hx, rfl, hmem, hdirty, ⟨hmepc, hmpie, rfl⟩, hcfg, hirq⟩
  case ecall => exact sameOutcome_raise h _
  case fence => exact SameEffect.of_no_rd rfl h.advance rfl rfl
  case fenceI =>
    obtain ⟨hx, hpc, hmem, -, hrest⟩ := h.advance
    exact SameEffect.of_no_rd rfl ⟨hx, hpc, hmem, rfl, hrest⟩ rfl rfl
  case sll rd rs1 rs2 => exact sameOutcome_binary h (exec_sll rd rs1 rs2) rfl hr
  case slt rd rs1 rs2 => exact sameOutcome_binary h (exec_slt rd rs1 rs2) rfl hr
  case sltu rd rs1 rs2 => exact sameOutcome_binary h (exec_sltu rd rs1 rs2) rfl hr
  case srl rd rs1 rs2 => exact sameOutcome_binary h (exec_srl rd rs1 rs2) rfl hr
  case sra rd rs1 rs2 => exact sameOutcome_binary h (exec_sra rd rs1 rs2) rfl hr
  case mul rd rs1 rs2 => exact sameOutcome_binary h (exec_mul rd rs1 rs2) rfl hr
  case mulh rd rs1 rs2 => exact sameOutcome_binary h (exec_mulh rd rs1 rs2) rfl hr
  case mulhsu rd rs1 rs2 => exact sameOutcome_binary h (exec_mulhsu rd rs1 rs2) rfl hr
  case mulhu rd rs1 rs2 => exact sameOutcome_binary h (exec_mulhu rd rs1 rs2) rfl hr
  all_goals exact sameOutcome_binary h (fun _ => rfl) rfl hr

end

end Sys2Proof.Machine

open Sys2Proof Sys2Proof.Machine

/-- Settles O16: writing `r` gives a state that differs from `s` in `r` only. -/
theorem registersNotNamedDoNotMatter : Obligations.RegistersNotNamedDoNotMatter := fun _ s r v hr =>
  sameOutcome_exec (sameButRegister_setX s r v) hr

end

section
/-! Control transfer and system instructions (`42_branch_jump.md`, `44_system.md`), and the two ends of a run
(`70_reset_and_hazards.md` R285). -/

namespace Sys2Proof.Machine

/-! ### Targets as narrowed integers -/

section
variable (s : State)

/-- A relative target is the sum with the signed distance (R160). -/
theorem State.relTarget_eq_trunc32 {n : Nat} (dist : BitVec n) :
    s.relTarget dist = trunc32 (unsigned s.pc + dist.toInt) := by
  rw [State.relTarget, trunc32_add, trunc32_unsigned, sext_eq_trunc32]

/-- An effective address is the sum with the signed immediate (R50). -/
theorem State.effAddr_eq_trunc32 (rs1 : Reg) (imm : BitVec 12) :
    s.effAddr rs1 imm = trunc32 (unsigned (s.x rs1) + imm.toInt) := by
  rw [State.effAddr, trunc32_add, trunc32_unsigned, sext_eq_trunc32]

theorem State.link_eq_trunc32 : s.link = trunc32 (unsigned s.pc + 4) := by
  rw [State.link, trunc32_add, trunc32_unsigned]
  rfl

/-- Clearing bit 0 is halving and doubling (R168). -/
theorem clearBit0_eq_trunc32 (a : Word) : a.extractLsb' 1 31 ++ 0#1 = trunc32 (unsigned a / 2 * 2) := by
  have hvalue : unsigned a / 2 * 2 = (a.toNat / 2 * 2 : Nat) := by simp [unsigned]
  have hlt := a.isLt
  rw [hvalue, trunc32_natCast]
  refine BitVec.eq_of_toNat_eq ?_
  rw [toNat_append_mul, toNat_extract_div, BitVec.toNat_ofNat, BitVec.toNat_ofNat]
  omega

theorem State.jalrTarget_eq_trunc32 (rs1 : Reg) (imm : BitVec 12) :
    s.jalrTarget rs1 imm = trunc32 (unsigned (s.effAddr rs1 imm) / 2 * 2) :=
  clearBit0_eq_trunc32 _

/-! ### Results of control transfers -/

/-- A change of `pc` alone. -/
theorem State.withPc_jumpResult (p : Word) : JumpResult s p (.next { s with pc := p }) :=
  ⟨_, rfl, rfl, fun _ => rfl, ⟨fun _ => rfl, rfl⟩, ⟨rfl, rfl, rfl⟩, ⟨rfl, rfl⟩⟩

/-- A change of `pc` and of one register. -/
theorem State.setX_withPc_registerUpdate (rd : Reg) (v p : Word) :
    RegisterUpdate s rd v p { s.setX rd v with pc := p } := by
  refine ⟨rfl, fun hrd => ?_, State.x_zero _, fun r hr => ?_, ⟨s.setX_byte? rd v, by simp⟩, ⟨by simp, by simp, by simp⟩,
    ⟨by simp, by simp⟩⟩
  · rw [State.withPc_x, State.x_setX_same s hrd]
  · rw [State.withPc_x, State.x_setX_other s hr]

/-- A jump that links, to a target in the form the rules give it. -/
theorem State.linkedTransfer_rule (rd : Reg) {target : Word} :
    (target.toNat % 4 = 0 → ∃ t, s.transfer target (s.setX rd s.link) = .next t ∧
      RegisterUpdate s rd (trunc32 (unsigned s.pc + 4)) target t) ∧
    (target.toNat % 4 ≠ 0 →
      Raises s (.instructionAddressMisaligned target) (s.transfer target (s.setX rd s.link))) := by
  refine ⟨fun ha => ⟨_, s.transfer_aligned _ ha, ?_⟩, fun ha => ?_⟩
  · rw [← s.link_eq_trunc32]
    exact s.setX_withPc_registerUpdate rd s.link target
  · rw [s.transfer_misaligned _ ha]
    exact s.raise_raises _

end

/-- A branch whose comparison decides the condition of its rule (R160, R170). -/
theorem branchRule_of_exec {mk : Reg → Reg → BitVec 13 → Instr} {c : Word → Word → Bool} {cond : Word → Word → Prop}
    (hexec : ∀ rs1 rs2 dist s, exec (mk rs1 rs2 dist) s = execBranch c rs1 rs2 dist s)
    (hcond : ∀ a b, c a b = true ↔ cond a b) : BranchRule mk cond := by
  intro s rs1 rs2 dist target htarget
  rw [← s.relTarget_eq_trunc32] at htarget
  rw [hexec, execBranch, ← htarget]
  refine ⟨fun htaken ha => ?_, fun htaken ha => ?_, fun hnot => ?_⟩
  · rw [if_pos ((hcond _ _).2 htaken), s.transfer_aligned s ha]
    exact s.withPc_jumpResult target
  · rw [if_pos ((hcond _ _).2 htaken), s.transfer_misaligned s ha]
    exact s.raise_raises _
  · rw [if_neg (mt (hcond _ _).1 hnot)]
    exact s.withPc_jumpResult (s.pc + 4)

/-- A row that fixes the whole word has one word (R89). -/
theorem decode_eq_ok_iff_of_fixed {i : Instr} (hmask : i.row.mask = 0xffffffff) (hfields : ∀ w, i.withFields w = i)
    (w : Word) : decode w = .ok i ↔ w = i.row.pattern := by
  rw [← rowMatches_iff_word hmask]
  refine ⟨rowMatches_of_decode, fun h => ?_⟩
  rw [decode_of_rowMatches i h, hfields w]

end Sys2Proof.Machine

open Sys2Proof Sys2Proof.Machine

/-- Settles O37: `branchRule_of_exec` on the two comparisons for equality. -/
theorem equalityBranches : Obligations.EqualityBranches :=
  ⟨encodedAs_row (.beq 0 0 0), encodedAs_row (.bne 0 0 0), branchRule_of_exec (fun _ _ _ _ => rfl) beq_word_eq_true,
    branchRule_of_exec exec_bne not_beq_word_eq_true⟩

/-- Settles O38: `branchRule_of_exec` on the comparison of signed values and its negation. -/
theorem signedBranches : Obligations.SignedBranches :=
  ⟨encodedAs_row (.blt 0 0 0), encodedAs_row (.bge 0 0 0), branchRule_of_exec (fun _ _ _ _ => rfl) ltSigned_eq_true,
    branchRule_of_exec exec_bge not_ltSigned_eq_true⟩

/-- Settles O39: `branchRule_of_exec` on the comparison of unsigned values and its negation. -/
theorem unsignedBranches : Obligations.UnsignedBranches :=
  ⟨encodedAs_row (.bltu 0 0 0), encodedAs_row (.bgeu 0 0 0), branchRule_of_exec (fun _ _ _ _ => rfl) ltUnsigned_eq_true,
    branchRule_of_exec exec_bgeu not_ltUnsigned_eq_true⟩

/-- Settles O40: the link is written on the way to an aligned target only. -/
theorem jumpAndLink : Obligations.JumpAndLink := by
  refine ⟨encodedAs_row (.jal 0 0), fun s rd dist target htarget => ?_⟩
  obtain rfl : target = s.relTarget dist := htarget.trans (s.relTarget_eq_trunc32 dist).symm
  exact s.linkedTransfer_rule rd

/-- Settles O41: the target and the link are computed before `rd` is written, so `rd = rs1` is no special case. -/
theorem indirectJumpAndLink : Obligations.IndirectJumpAndLink := by
  refine ⟨encodedAs_row (.jalr 0 0 0), fun s rd rs1 imm sum target hsum htarget => ?_⟩
  obtain rfl : target = s.jalrTarget rs1 imm := by
    rw [htarget, hsum, s.jalrTarget_eq_trunc32, s.effAddr_eq_trunc32]
  exact s.linkedTransfer_rule rd

/-- Settles O42: `mret` is a transfer to `mepc`, and its row has one word. -/
theorem mretReturnsFromTheTrap : Obligations.MretReturnsFromTheTrap := by
  refine ⟨decode_eq_ok_iff_of_fixed (i := .mret) rfl fun _ => rfl, fun s => ⟨fun ha => ?_, fun ha => ?_⟩⟩
  · refine ⟨_, s.transfer_aligned s.trapReturn ha, rfl, rfl, rfl, rfl, fun _ => rfl, ⟨fun _ => rfl, rfl⟩, ⟨rfl, rfl⟩⟩
  · rw [show exec .mret s = s.transfer s.mepc s.trapReturn from rfl, s.transfer_misaligned _ ha]
    exact s.raise_raises _

/-- Settles O43: `ecall` is `raise`, which `mie` plays no part in. -/
theorem ecallRaisesEnvironmentCall : Obligations.EcallRaisesEnvironmentCall := by
  refine ⟨decode_eq_ok_iff_of_fixed (i := .ecall) rfl fun _ => rfl, fun s => ?_⟩
  obtain ⟨hfault, -, hvector⟩ := s.raise_raises .environmentCall
  exact ⟨hfault, fun hmode => hvector hmode (by simp)⟩

/-- Settles O44: a `fence` is a change of `pc` alone. -/
theorem fenceChangesNothing : Obligations.FenceChangesNothing :=
  ⟨fun _ hrow => ⟨_, _, decode_of_rowMatches (.fence 0 0) hrow⟩, fun s _ _ => s.withPc_jumpResult (s.pc + 4)⟩

/-- Settles O45: the next state, field by field. -/
theorem fenceIEmptiesFetchDirty : Obligations.FenceIEmptiesFetchDirty :=
  ⟨fun _ hrow => ⟨_, _, decode_of_rowMatches (.fenceI 0 0) hrow⟩, fun _ _ _ =>
    ⟨_, rfl, rfl, rfl, fun _ => rfl, fun _ => rfl, ⟨rfl, rfl, rfl⟩, ⟨rfl, rfl⟩⟩⟩

/-- Settles O55: the spin's target is its own aligned address, its link is written to `x0`, and no sample is left to take. -/
theorem runsEndByTrapOrBySpin : Obligations.RunsEndByTrapOrBySpin := by
  refine ⟨fun s hn hf hmode => ?_, fun s hf hirq => ?_⟩
  · have hdecode : decode 0x00000073 = .ok .ecall := by decide
    rw [EndsInTrap, step_of_fetches hn hf hdecode]
    exact (s.tick.raise_raises .environmentCall).1 hmode
  · have hdecode : decode 0x0000006f = .ok (.jal 0 0) := by decide
    have hn : NoInterrupt s := .inr (by simp [State.irqPending, hirq])
    have htick : s.tick = s := by rw [State.tick, hirq, List.tail_nil, ← hirq]
    have htarget : s.relTarget 0#21 = s.pc := by simp [State.relTarget, sext]
    rw [SpinEnd, step_of_fetches hn hf hdecode, htick]
    change s.transfer (s.relTarget 0#21) s = .next s
    rw [htarget, s.transfer_aligned s hf.aligned]

end

section
/-! The two-word expansions of `li` and `la` (`30_encoding.md` R102, R103), and multiply and divide (`43_muldiv.md` R181, R185 to
R189). -/

namespace Sys2Proof.Machine

/-! ### High and low parts of a word -/

/-- The sign-extended low 12 bits, as a number: the part that the high part must make up for. -/
theorem toNat_sext_low (v : Word) :
    (sext (v.extractLsb' 0 12)).toNat = v.toNat % 4096 + v.toNat % 4096 / 2048 * 4294963200 := by
  rw [toNat_sext _ (by decide) (by decide), toNat_extract_div]
  simp

theorem toNat_upper_high (v : Word) : (upper (v.extractLsb' 12 20)).toNat = v.toNat / 4096 * 4096 := by
  have hlt := v.isLt
  rw [upper, toNat_append_mul, toNat_extract_div, BitVec.toNat_ofNat]
  omega

/-- R103: the high part left when the sign-extended low part is taken off. -/
theorem upper_add_sext_low (v : Word) :
    upper ((v - sext (v.extractLsb' 0 12)).extractLsb' 12 20) + sext (v.extractLsb' 0 12) = v := by
  have hlow := toNat_sext_low v
  have hlt := v.isLt
  refine BitVec.eq_of_toNat_eq ?_
  rw [BitVec.toNat_add, toNat_upper_high, BitVec.toNat_sub, hlow]
  omega

/-- R102: adding 0x800 rounds the high part to what the sign-extended low part leaves. -/
theorem upper_rounded_add_sext_low (v : Word) :
    upper ((v + 0x800).extractLsb' 12 20) + sext (v.extractLsb' 0 12) = v := by
  have hlow := toNat_sext_low v
  have hlt := v.isLt
  refine BitVec.eq_of_toNat_eq ?_
  rw [BitVec.toNat_add, toNat_upper_high, BitVec.toNat_add, hlow, show (0x800 : Word).toNat = 2048 from rfl]
  -- The rounded high part is one more exactly when the low part is negative.
  rcases Nat.lt_or_ge (v.toNat % 4096) 2048 with hpos | hneg
  · have hsign : v.toNat % 4096 / 2048 = 0 := by omega
    have hround : (v.toNat + 2048) % 2 ^ 32 / 4096 = v.toNat / 4096 := by omega
    rw [hsign, hround]
    omega
  · have hsign : v.toNat % 4096 / 2048 = 1 := by omega
    have hround : (v.toNat + 2048) % 2 ^ 32 / 4096 = (v.toNat / 4096 + 1) % 1048576 := by omega
    rw [hsign, hround]
    omega

/-- A constant in the range of a 12-bit immediate is its own sign-extended low part. -/
theorem sext_low_of_range {v : Word} (hlow : -2048 ≤ signed v) (hhigh : signed v ≤ 2047) :
    sext (v.extractLsb' 0 12) = v := by
  have hsext := toNat_sext_low v
  have hlt := v.isLt
  rw [signed, BitVec.toInt_eq_toNat_cond] at hlow hhigh
  refine BitVec.eq_of_toNat_eq ?_
  rw [hsext]
  split at hlow <;> omega

/-- An instruction that writes `a` to `rd`, then `addi rd, rd, lo`. -/
theorem exec_then_addi {i : Instr} {s : State} {rd : Reg} {a : Word} (hrd : rd ≠ 0) (h : RegisterResult s rd a (exec i s))
    (lo : BitVec 12) :
    ∃ t u, exec i s = .next t ∧ exec (.addi rd rd lo) t = .next u ∧ u.x rd = a + sext lo ∧ t.x rd = a ∧
      (∀ r, r ≠ rd → u.x r = s.x r) ∧ SameMemory s u ∧ SameControl s u := by
  obtain ⟨t, ht, -, hta, -, htx, ⟨htmem, htdirty⟩, ⟨htmepc, htmie, htmpie⟩, -⟩ := h
  obtain ⟨u, hu, -, hua, -, hux, ⟨humem, hudirty⟩, ⟨humepc, humie, humpie⟩, -⟩ :=
    immediate_result_of_exec (exec_addi rd rd lo t) rfl
  refine ⟨t, u, ht, hu, ?_, hta hrd, fun r hr => (hux r hr).trans (htx r hr),
    ⟨fun b => (humem b).trans (htmem b), hudirty.trans htdirty⟩,
    ⟨humepc.trans htmepc, humie.trans htmie, humpie.trans htmpie⟩⟩
  rw [hua hrd, hta hrd]

/-! ### Signed words and their narrowing -/

theorem signed_trunc32 {n : Int} (hlow : -2147483648 ≤ n) (hhigh : n < 2147483648) : signed (trunc32 n) = n :=
  BitVec.toInt_ofInt_eq_self (by decide) hlow hhigh

theorem unsigned_trunc32 {n : Int} (hlow : 0 ≤ n) (hhigh : n < 4294967296) : unsigned (trunc32 n) = n := by
  rw [unsigned, trunc32, BitVec.toNat_ofInt]
  omega

theorem signed_range (a : Word) : -2147483648 ≤ signed a ∧ signed a < 2147483648 :=
  ⟨BitVec.le_toInt a, BitVec.toInt_lt⟩

theorem unsigned_range (a : Word) : 0 ≤ unsigned a ∧ unsigned a < 4294967296 := by
  have hlt := a.isLt
  rw [unsigned]
  omega

theorem signed_eq_zero (a : Word) : signed a = 0 ↔ a = 0 := BitVec.toInt_inj (y := 0#32)

theorem unsigned_eq_zero (a : Word) : unsigned a = 0 ↔ a = 0 := by
  rw [unsigned, ← BitVec.toNat_inj]
  simp

/-- The signed overflow of a quotient (R189). -/
theorem signed_overflow_iff (a b : Word) :
    (signed a = -2147483648 ∧ signed b = -1) ↔ (a = 0x80000000 ∧ b = 0xFFFFFFFF) :=
  and_congr (BitVec.toInt_inj (x := a) (y := 0x80000000#32)) (BitVec.toInt_inj (x := b) (y := 0xFFFFFFFF#32))

/-! ### Quotients and remainders -/

section
variable {a b : Word}

theorem divSigned_zero (a : Word) : divSigned a 0 = 0xFFFFFFFF := rfl

theorem divUnsigned_zero (a : Word) : divUnsigned a 0 = 0xFFFFFFFF := rfl

theorem remSigned_zero (a : Word) : remSigned a 0 = a := rfl

theorem remUnsigned_zero (a : Word) : remUnsigned a 0 = a := rfl

theorem divSigned_overflow : divSigned 0x80000000 0xFFFFFFFF = 0x80000000 := by decide

theorem remSigned_overflow : remSigned 0x80000000 0xFFFFFFFF = 0 := by decide

theorem divSigned_eq (hb : b ≠ 0) (h : ¬ (a = 0x80000000 ∧ b = 0xFFFFFFFF)) :
    divSigned a b = trunc32 ((signed a).tdiv (signed b)) := by
  rw [divSigned, if_neg (mt (signed_eq_zero b).1 hb), if_neg (mt (signed_overflow_iff a b).1 h)]

theorem remSigned_eq (hb : b ≠ 0) (h : ¬ (a = 0x80000000 ∧ b = 0xFFFFFFFF)) :
    remSigned a b = trunc32 (signed a - (signed a).tdiv (signed b) * signed b) := by
  rw [remSigned, if_neg (mt (signed_eq_zero b).1 hb), if_neg (mt (signed_overflow_iff a b).1 h)]

theorem divUnsigned_eq (hb : b ≠ 0) : divUnsigned a b = trunc32 (unsigned a / unsigned b) :=
  if_neg (mt (unsigned_eq_zero b).1 hb)

theorem remUnsigned_eq (hb : b ≠ 0) : remUnsigned a b = trunc32 (unsigned a - unsigned a / unsigned b * unsigned b) :=
  if_neg (mt (unsigned_eq_zero b).1 hb)

/-- Outside the overflow a truncated quotient of two 32-bit values is one: only a divisor of 1 or -1 keeps the magnitude. -/
theorem tdiv_range {x y : Int} (hx : -2147483648 ≤ x) (hx' : x < 2147483648) (hy : y ≠ 0)
    (h : ¬ (x = -2147483648 ∧ y = -1)) : -2147483648 ≤ x.tdiv y ∧ x.tdiv y < 2147483648 := by
  rcases eq_or_ne y 1 with rfl | hone
  · rw [Int.tdiv_one]
    exact ⟨hx, hx'⟩
  rcases eq_or_ne y (-1) with rfl | hminus
  · rw [Int.tdiv_neg, Int.tdiv_one]
    omega
  · have habs : (x.tdiv y).natAbs = x.natAbs / y.natAbs := Int.natAbs_tdiv x y
    have hhalf : x.natAbs / y.natAbs ≤ x.natAbs / 2 := Nat.div_le_div_left (by omega) (by decide)
    omega

/-- R189, laws 1, 2 and 5, for the truncated quotient of any two integers. -/
theorem tdiv_laws (x : Int) {y : Int} (hy : y ≠ 0) :
    (x - x.tdiv y * y).natAbs < y.natAbs ∧
      (x - x.tdiv y * y = 0 ∨ (x - x.tdiv y * y < 0 ↔ x < 0)) ∧ (x.tdiv y * y).natAbs ≤ x.natAbs := by
  have hmod : x - x.tdiv y * y = x.tmod y := by rw [Int.tmod_def, Int.mul_comm]
  have hsign := Int.sign_tmod x y
  rw [hmod]
  refine ⟨?_, ?_, ?_⟩
  · rw [Int.natAbs_tmod]
    exact Nat.mod_lt _ (Int.natAbs_pos.2 hy)
  · split at hsign
    · exact .inl (Int.sign_eq_zero_iff_zero.1 hsign)
    · right
      rw [← Int.sign_eq_neg_one_iff_neg, hsign, Int.sign_eq_neg_one_iff_neg]
  · rw [Int.natAbs_mul, Int.natAbs_tdiv]
    exact Nat.div_mul_le_self _ _

/-- Outside the corners the signed quotient and remainder are the exact ones. -/
theorem signed_divSigned (hb : b ≠ 0) (h : ¬ (a = 0x80000000 ∧ b = 0xFFFFFFFF)) :
    signed (divSigned a b) = (signed a).tdiv (signed b) := by
  obtain ⟨hlow, hhigh⟩ := signed_range a
  have hrange := tdiv_range hlow hhigh (mt (signed_eq_zero b).1 hb) (mt (signed_overflow_iff a b).1 h)
  rw [divSigned_eq hb h, signed_trunc32 hrange.1 hrange.2]

theorem signed_remSigned (hb : b ≠ 0) (h : ¬ (a = 0x80000000 ∧ b = 0xFFFFFFFF)) :
    signed (remSigned a b) = signed a - (signed a).tdiv (signed b) * signed b := by
  obtain ⟨hlow, hhigh⟩ := signed_range b
  have hlaws := tdiv_laws (signed a) (mt (signed_eq_zero b).1 hb)
  rw [remSigned_eq hb h, signed_trunc32] <;> omega

theorem unsigned_divUnsigned (hb : b ≠ 0) : unsigned (divUnsigned a b) = unsigned a / unsigned b := by
  obtain ⟨hnonneg, hlt⟩ := unsigned_range a
  have hb' : 0 ≤ unsigned b := (unsigned_range b).1
  have hle : unsigned a / unsigned b ≤ unsigned a := Int.ediv_le_self _ hnonneg
  rw [divUnsigned_eq hb, unsigned_trunc32 (Int.ediv_nonneg hnonneg hb') (by omega)]

/-- The unsigned remainder is that of the division of the unsigned values. -/
theorem unsigned_remUnsigned (hb : b ≠ 0) : unsigned (remUnsigned a b) = unsigned a % unsigned b := by
  have hmod : unsigned a - unsigned a / unsigned b * unsigned b = unsigned a % unsigned b := by
    rw [Int.emod_def, Int.mul_comm]
  obtain ⟨hnonneg, hlt⟩ := unsigned_range b
  have hne : unsigned b ≠ 0 := mt (unsigned_eq_zero b).1 hb
  have hrem := Int.emod_nonneg (unsigned a) hne
  have hrem' := Int.emod_lt_of_pos (unsigned a) (b := unsigned b) (by omega)
  rw [remUnsigned_eq hb, hmod, unsigned_trunc32 hrem (by omega)]

end

/-! ### The operation of each instruction -/

section
variable (rd rs1 rs2 : Reg) (s : State)

theorem exec_div : exec (.div rd rs1 rs2) s = execBinary divSigned rd rs1 rs2 s := rfl

theorem exec_divu : exec (.divu rd rs1 rs2) s = execBinary divUnsigned rd rs1 rs2 s := rfl

theorem exec_rem : exec (.rem rd rs1 rs2) s = execBinary remSigned rd rs1 rs2 s := rfl

theorem exec_remu : exec (.remu rd rs1 rs2) s = execBinary remUnsigned rd rs1 rs2 s := rfl

end

/-- A register-register instruction completes, and its destination reads the value of its operation. -/
theorem exec_binary_next {i : Instr} {f : Word → Word → Word} {s : State} {rd rs1 rs2 : Reg} (hrd : rd ≠ 0)
    (hi : exec i s = execBinary f rd rs1 rs2 s) : ∃ t, exec i s = .next t ∧ t.x rd = f (s.x rs1) (s.x rs2) := by
  obtain ⟨t, ht, -, hx, -⟩ := register_result_of_exec hi rfl
  exact ⟨t, ht, hx hrd⟩

end Sys2Proof.Machine

open Sys2Proof Sys2Proof.Machine

/-- Settles O31: the two parts of `v` sum to `v`, and a small `v` is its own low part. -/
theorem loadImmediateExpansion : Obligations.LoadImmediateExpansion := fun s rd v hrd => by
  refine ⟨fun hlow hhigh => immediate_result_of_exec (exec_addi rd 0 _ s) ?_, ?_⟩
  · rw [State.x_zero, sext_low_of_range hlow hhigh]
    exact BitVec.zero_add v
  · obtain ⟨t, u, ht, hu, hux, htx, hrest⟩ :=
      exec_then_addi hrd (register_result_of_writeRd (exec_lui rd _ s) rfl) (v.extractLsb' 0 12)
    refine ⟨t, u, ht, hu, hux.trans (upper_add_sext_low v), fun hzero => ?_, hrest⟩
    have hsum := upper_add_sext_low v
    rw [htx]
    rw [hzero] at hsum ⊢
    simpa [sext] using hsum

/-- Settles O32: the two parts of the distance sum to it, from the `pc` of the `auipc`. -/
theorem loadAddressExpansion : Obligations.LoadAddressExpansion := fun s rd symbol delta hrd hdelta => by
  obtain ⟨t, u, ht, hu, hux, -, hrest⟩ :=
    exec_then_addi hrd (register_result_of_writeRd (exec_auipc rd _ s) rfl) (delta.extractLsb' 0 12)
  refine ⟨t, u, ht, hu, ?_, hrest⟩
  rw [hux, BitVec.add_assoc, upper_rounded_add_sext_low, hdelta, BitVec.add_comm, BitVec.sub_add_cancel]

/-- Settles O33: narrowing commutes with the product, and gives back a word from either of its two readings. -/
theorem mulLowResult : Obligations.MulLowResult := by
  refine ⟨encodedAs_row (.mul 0 0 0), fun s rd rs1 rs2 => ⟨register_result_of_exec (exec_mul rd rs1 rs2 s) rfl,
    register_result_of_exec (exec_mul rd rs1 rs2 s) ?_⟩⟩
  rw [trunc32_mul, trunc32_mul, trunc32_unsigned, trunc32_unsigned, trunc32_signed, trunc32_signed]

/-- Settles O35: the value of each operation in each corner and outside them. -/
theorem divisionResults : Obligations.DivisionResults := by
  refine ⟨encodedAs_row (.div 0 0 0), encodedAs_row (.divu 0 0 0), encodedAs_row (.rem 0 0 0), encodedAs_row (.remu 0 0 0),
    ?_⟩
  rintro s rd rs1 rs2 a b rfl rfl
  have hdiv {v} := register_result_of_exec (v := v) (exec_div rd rs1 rs2 s)
  have hdivu {v} := register_result_of_exec (v := v) (exec_divu rd rs1 rs2 s)
  have hrem {v} := register_result_of_exec (v := v) (exec_rem rd rs1 rs2 s)
  have hremu {v} := register_result_of_exec (v := v) (exec_remu rd rs1 rs2 s)
  refine ⟨fun hb => ⟨hdiv ?_, hdivu ?_, hrem ?_, hremu ?_⟩, fun ha hb => ⟨hdiv ?_, hrem ?_⟩,
    fun hb h => ⟨hdiv (divSigned_eq hb h), hrem (remSigned_eq hb h)⟩,
    fun hb => ⟨hdivu (divUnsigned_eq hb), hremu (remUnsigned_eq hb)⟩⟩
  · rw [hb, divSigned_zero]
  · rw [hb, divUnsigned_zero]
  · rw [hb, remSigned_zero]
  · rw [hb, remUnsigned_zero]
  · rw [ha, hb, divSigned_overflow]
  · rw [ha, hb, remSigned_overflow]

/-- Settles O36: the laws of truncated division of integers, for results that are exact outside the corners. -/
theorem divisionLaws : Obligations.DivisionLaws := by
  rintro s rd rs1 rs2 a b hrd rfl rfl
  obtain ⟨q, hq, hqx⟩ := exec_binary_next hrd (exec_div rd rs1 rs2 s)
  obtain ⟨r, hr, hrx⟩ := exec_binary_next hrd (exec_rem rd rs1 rs2 s)
  obtain ⟨qu, hqu, hqux⟩ := exec_binary_next hrd (exec_divu rd rs1 rs2 s)
  obtain ⟨ru, hru, hrux⟩ := exec_binary_next hrd (exec_remu rd rs1 rs2 s)
  refine ⟨q, r, qu, ru, hq, hr, hqu, hru, fun hb h => ?_, fun hb => ?_, fun hb => ?_, fun ha hb => ?_⟩
  · rw [hqx, hrx, signed_divSigned hb h, signed_remSigned hb h]
    exact ⟨(add_sub_cancel _ _).symm, tdiv_laws _ (mt (signed_eq_zero _).1 hb)⟩
  · have hpos : 0 < unsigned (s.x rs2) :=
      lt_of_le_of_ne (unsigned_range _).1 (Ne.symm (mt (unsigned_eq_zero _).1 hb))
    rw [hqux, hrux, unsigned_divUnsigned hb, unsigned_remUnsigned hb]
    exact ⟨(Int.ediv_mul_add_emod _ _).symm, Int.emod_lt_of_pos _ hpos⟩
  · rw [hqx, hrx, hqux, hrux, hb]
    exact ⟨divSigned_zero _, divUnsigned_zero _, remSigned_zero _, remUnsigned_zero _⟩
  · rw [hqx, hrx, ha, hb]
    exact ⟨divSigned_overflow, remSigned_overflow⟩

end

section
/-! Loads and stores (`45_load_store.md`, `20_memory.md` R50 to R59): the rules of a load and of a store of any width, the refusal
of device bytes, and what is read, or fetched, after a store. -/

namespace Sys2Proof.Machine

/-! ### The operation of each instruction -/

section
variable (rd rs2 rs1 : Reg) (imm : BitVec 12) (s : State)

theorem exec_lb : exec (.lb rd rs1 imm) s = execLoad 1 (fun b => b.signExtend 32) rd rs1 imm s := rfl

theorem exec_lh : exec (.lh rd rs1 imm) s = execLoad 2 (fun h => h.signExtend 32) rd rs1 imm s := rfl

theorem exec_lw : exec (.lw rd rs1 imm) s = execLoad 4 (fun w => w) rd rs1 imm s := rfl

theorem exec_lbu : exec (.lbu rd rs1 imm) s = execLoad 1 (fun b => b.setWidth 32) rd rs1 imm s := rfl

theorem exec_lhu : exec (.lhu rd rs1 imm) s = execLoad 2 (fun h => h.setWidth 32) rd rs1 imm s := rfl

theorem exec_sb : exec (.sb rs2 rs1 imm) s = execStore 1 rs2 rs1 imm s := rfl

theorem exec_sh : exec (.sh rs2 rs1 imm) s = execStore 2 rs2 rs1 imm s := rfl

theorem exec_sw : exec (.sw rs2 rs1 imm) s = execStore 4 rs2 rs1 imm s := rfl

end

/-! ### A load or a store, case by case of its access -/

section
variable {s : State} {n : Nat} {ext : BitVec (8 * n) → Word} {rd rs1 rs2 : Reg} {imm : BitVec 12} {ea : Word}

theorem execLoad_ok (hea : s.effAddr rs1 imm = ea) (ha : ea.toNat % n = 0) (hm : Admitted s .read ea n)
    (ho : Ordinary s ea n) : execLoad n ext rd rs1 imm s = s.writeRd rd (ext (s.readLE ea n)) := by
  rw [execLoad, hea, State.memRead_ok ha hm ho]
  rfl

theorem execLoad_misaligned (hea : s.effAddr rs1 imm = ea) (ha : ea.toNat % n ≠ 0) :
    execLoad n ext rd rs1 imm s = s.raise (.loadAddressMisaligned ea) := by
  rw [execLoad, hea, State.memRead_misaligned ha]
  rfl

theorem execLoad_notAdmitted (hea : s.effAddr rs1 imm = ea) (ha : ea.toNat % n = 0) (hm : ¬ Admitted s .read ea n) :
    execLoad n ext rd rs1 imm s = s.raise (.loadAccessFault ea) := by
  rw [execLoad, hea, State.memRead_notAdmitted ha hm]
  rfl

theorem execLoad_device (hea : s.effAddr rs1 imm = ea) (ha : ea.toNat % n = 0) (hm : Admitted s .read ea n)
    (ho : ¬ Ordinary s ea n) : execLoad n ext rd rs1 imm s = .refused (.deviceAccess ea) := by
  rw [execLoad, hea, State.memRead_device ha hm ho]
  rfl

theorem execStore_ok (hea : s.effAddr rs1 imm = ea) (ha : ea.toNat % n = 0) (hm : Admitted s .write ea n)
    (ho : Ordinary s ea n) :
    execStore n rs2 rs1 imm s = .next (s.store ea n ((s.x rs2).setWidth (8 * n))).advance := by
  rw [execStore, hea, State.memWrite_ok ha hm ho]
  rfl

theorem execStore_misaligned (hea : s.effAddr rs1 imm = ea) (ha : ea.toNat % n ≠ 0) :
    execStore n rs2 rs1 imm s = s.raise (.storeAddressMisaligned ea) := by
  rw [execStore, hea, State.memWrite_misaligned ha]
  rfl

theorem execStore_notAdmitted (hea : s.effAddr rs1 imm = ea) (ha : ea.toNat % n = 0) (hm : ¬ Admitted s .write ea n) :
    execStore n rs2 rs1 imm s = s.raise (.storeAccessFault ea) := by
  rw [execStore, hea, State.memWrite_notAdmitted ha hm]
  rfl

theorem execStore_device (hea : s.effAddr rs1 imm = ea) (ha : ea.toNat % n = 0) (hm : Admitted s .write ea n)
    (ho : ¬ Ordinary s ea n) : execStore n rs2 rs1 imm s = .refused (.deviceAccess ea) := by
  rw [execStore, hea, State.memWrite_device ha hm ho]
  rfl

/-- A store that completes under `TRAP_MODE = fault` is the write of R53, at an aligned, admitted, ordinary address. -/
theorem execStore_next {t : State} (hmode : s.cfg.trapMode = .fault) (h : execStore n rs2 rs1 imm s = .next t) :
    (s.effAddr rs1 imm).toNat % n = 0 ∧ Admitted s .write (s.effAddr rs1 imm) n ∧ Ordinary s (s.effAddr rs1 imm) n ∧
      t = (s.store (s.effAddr rs1 imm) n ((s.x rs2).setWidth (8 * n))).advance := by
  rcases State.andThen_next h with ⟨u, hwrite, hnext⟩ | ⟨hvector, -⟩
  · obtain ⟨ha, hm, ho, rfl⟩ := State.memWrite_eq_ok hwrite
    cases hnext
    exact ⟨ha, hm, ho, rfl⟩
  · simp [hmode] at hvector

/-- The low `n` bytes of a word are its bytes. -/
theorem extract_byte_setWidth (v : Word) {n k : Nat} (hk : k < n) :
    (v.setWidth (8 * n)).extractLsb' (8 * k) 8 = v.extractLsb' (8 * k) 8 := by
  refine BitVec.eq_of_getLsbD_eq fun i hi => ?_
  have hin : 8 * k + i < 8 * n := by omega
  simp [hi, hin]

/-- What a store leaves (R53). -/
theorem State.store_result (s : State) (a : Word) {n : Nat} (hn : n ≤ 4294967296) (v : Word) :
    StoreResult s a n v (.next (s.store a n (v.setWidth (8 * n))).advance) := by
  refine ⟨_, rfl, rfl, fun k hk => ?_, fun b hb => ?_, fun b => ?_, fun _ => rfl, ⟨rfl, rfl, rfl⟩, ⟨rfl, rfl⟩⟩
  · rw [State.advance_byte?, State.store_byte? _ _ _ _ hk hn, extract_byte_setWidth v hk]
  · rw [State.advance_byte?, State.store_byte?_other _ _ _ _ hb]
  · simp only [State.advance_fetchDirty, State.store_fetchDirty, AddrSet.mem_addBytes, BitVec.toNat_inj]

end

/-! ### The rules -/

section
variable {mk : Reg → Reg → BitVec 12 → Instr} {n : Nat}

theorem loadRule_of_exec {ext : BitVec (8 * n) → Word} {value : State → Word → Word}
    (hexec : ∀ rd rs1 imm s, exec (mk rd rs1 imm) s = execLoad n ext rd rs1 imm s)
    (hvalue : ∀ s a, ext (s.readLE a n) = value s a) : LoadRule mk n value := by
  intro s rd rs1 imm ea hea
  rw [← s.effAddr_eq_trunc32] at hea
  refine ⟨fun ha hm ho => ?_, fun ha hm => ?_⟩
  · rw [hexec, execLoad_ok hea.symm ha hm ho, hvalue]
    exact s.writeRd_result rd _
  · rw [hexec, execLoad_notAdmitted hea.symm ha hm]
    exact s.raise_raises _

theorem loadMisalignedRule_of_exec {ext : BitVec (8 * n) → Word}
    (hexec : ∀ rd rs1 imm s, exec (mk rd rs1 imm) s = execLoad n ext rd rs1 imm s) : LoadMisalignedRule mk n := by
  intro s rd rs1 imm ea hea ha
  rw [← s.effAddr_eq_trunc32] at hea
  rw [hexec, execLoad_misaligned hea.symm ha]
  exact s.raise_raises _

theorem storeRule_of_exec (hexec : ∀ rs2 rs1 imm s, exec (mk rs2 rs1 imm) s = execStore n rs2 rs1 imm s)
    (hn : n ≤ 4294967296) : StoreRule mk n := by
  intro s rs2 rs1 imm ea hea
  rw [← s.effAddr_eq_trunc32] at hea
  refine ⟨fun ha hm ho => ?_, fun ha hm => ?_⟩
  · rw [hexec, execStore_ok hea.symm ha hm ho]
    exact s.store_result ea hn _
  · rw [hexec, execStore_notAdmitted hea.symm ha hm]
    exact s.raise_raises _

theorem storeMisalignedRule_of_exec (hexec : ∀ rs2 rs1 imm s, exec (mk rs2 rs1 imm) s = execStore n rs2 rs1 imm s) :
    StoreMisalignedRule mk n := by
  intro s rs2 rs1 imm ea hea ha
  rw [← s.effAddr_eq_trunc32] at hea
  rw [hexec, execStore_misaligned hea.symm ha]
  exact s.raise_raises _

end

/-- Zero extension narrows the unsigned value (R224, R225). -/
theorem setWidth_eq_trunc32 {n : Nat} (x : BitVec n) : x.setWidth 32 = trunc32 x.toNat := by
  rw [trunc32_natCast, BitVec.ofNat_toNat]

/-! ### The rules of the eight loads and stores -/

theorem lb_rule : LoadRule .lb 1 (fun s ea => trunc32 (s.byte ea).toInt) :=
  loadRule_of_exec exec_lb fun s a => congrArg (fun b : BitVec 8 => b.signExtend 32) (s.readLE_one a)

theorem lbu_rule : LoadRule .lbu 1 (fun s ea => trunc32 (s.byte ea).toNat) :=
  loadRule_of_exec exec_lbu fun s a =>
    (congrArg (fun b : BitVec 8 => b.setWidth 32) (s.readLE_one a)).trans (setWidth_eq_trunc32 _)

theorem lh_rule : LoadRule .lh 2 (fun s ea => trunc32 (s.byte (ea + 1) ++ s.byte ea).toInt) :=
  loadRule_of_exec exec_lh fun s a => congrArg (fun h : BitVec 16 => h.signExtend 32) (s.readLE_two a)

theorem lhu_rule : LoadRule .lhu 2 (fun s ea => trunc32 (s.byte (ea + 1) ++ s.byte ea).toNat) :=
  loadRule_of_exec exec_lhu fun s a =>
    (congrArg (fun h : BitVec 16 => h.setWidth 32) (s.readLE_two a)).trans (setWidth_eq_trunc32 _)

theorem lw_rule :
    LoadRule .lw 4 (fun s ea => s.byte (ea + 3) ++ s.byte (ea + 2) ++ s.byte (ea + 1) ++ s.byte ea) :=
  loadRule_of_exec exec_lw State.readLE_four

/-! ### Accesses inside an admitted one -/

/-- Part of an admitted access is admitted. -/
theorem Admitted.part {s : State} {k : AccessKind} {a : Word} {n : Nat} (h : Admitted s k a n) {i m : Nat} (hi : i + m ≤ n) :
    Admitted s k (a + BitVec.ofNat 32 i) m := fun j hj => by
  rw [BitVec.add_assoc, ← BitVec.ofNat_add]
  exact h (i + j) (by omega)

/-- Part of ordinary memory is ordinary memory. -/
theorem Ordinary.part {s : State} {a : Word} {n : Nat} (h : Ordinary s a n) {i m : Nat} (hi : i + m ≤ n) :
    Ordinary s (a + BitVec.ofNat 32 i) m := fun j hj => by
  rw [BitVec.add_assoc, ← BitVec.ofNat_add]
  exact h (i + j) (by omega)

/-! ### After a word store -/

/-- `t` is the state after an `sw` of `v` at `a` completed. -/
structure WordStored (s : State) (a v : Word) (t : State) : Prop where
  aligned : a.toNat % 4 = 0
  ordinary : Ordinary s a 4
  state_eq : t = (s.store a 4 v).advance

theorem wordStored_of_sw {s t : State} {rs2 rs1 : Reg} {imm : BitVec 12} (hmode : s.cfg.trapMode = .fault)
    (h : exec (.sw rs2 rs1 imm) s = .next t) : WordStored s (s.effAddr rs1 imm) (s.x rs2) t := by
  obtain ⟨ha, -, ho, rfl⟩ := execStore_next hmode h
  exact ⟨ha, ho, congrArg (fun v : Word => (s.store _ 4 v).advance) (BitVec.setWidth_eq (s.x rs2))⟩

section
variable {s t : State} {a v : Word}

theorem WordStored.byte? (h : WordStored s a v t) {k : Nat} (hk : k < 4) :
    t.byte? (a + BitVec.ofNat 32 k) = some (v.extractLsb' (8 * k) 8) := by
  rw [h.state_eq, State.advance_byte?]
  exact s.store_byte? a 4 v hk (by decide)

theorem WordStored.byte (h : WordStored s a v t) {k : Nat} (hk : k < 4) :
    t.byte (a + BitVec.ofNat 32 k) = v.extractLsb' (8 * k) 8 := by
  rw [State.byte, h.byte? hk]
  rfl

theorem WordStored.ordinary_part (h : WordStored s a v t) {i m : Nat} (hi : i + m ≤ 4) :
    Ordinary t (a + BitVec.ofNat 32 i) m := by
  rw [h.state_eq]
  exact h.ordinary.part hi

theorem WordStored.admitted_part (h : WordStored s a v t) {k : AccessKind} (hm : Admitted s k a 4) {i m : Nat}
    (hi : i + m ≤ 4) : Admitted t k (a + BitVec.ofNat 32 i) m := by
  rw [h.state_eq]
  exact hm.part hi

theorem WordStored.admitted (h : WordStored s a v t) {k : AccessKind} (hm : Admitted s k a 4) : Admitted t k a 4 := by
  rw [h.state_eq]
  exact hm

/-- The half at a multiple of 2, as the bytes after the store lie. -/
theorem WordStored.half (h : WordStored s a v t) {i : Nat} (hi : i + 2 ≤ 4) :
    t.byte (a + BitVec.ofNat 32 i + 1) ++ t.byte (a + BitVec.ofNat 32 i) = v.extractLsb' (8 * i) 16 := by
  have hnext : a + BitVec.ofNat 32 i + 1 = a + BitVec.ofNat 32 (i + 1) := by
    rw [BitVec.ofNat_add, ← BitVec.add_assoc]
    rfl
  rw [hnext, h.byte (by omega), h.byte (by omega)]
  exact BitVec.extractLsb'_append_extractLsb'_eq_extractLsb' (by omega)

/-- The whole. -/
theorem WordStored.word (h : WordStored s a v t) : t.byte (a + 3) ++ t.byte (a + 2) ++ t.byte (a + 1) ++ t.byte a = v := by
  have h0 : t.byte a = v.extractLsb' 0 8 := by simpa using h.byte (k := 0) (by decide)
  have h1 : t.byte (a + 1) = v.extractLsb' 8 8 := h.byte (k := 1) (by decide)
  have h2 : t.byte (a + 2) = v.extractLsb' 16 8 := h.byte (k := 2) (by decide)
  have h3 : t.byte (a + 3) = v.extractLsb' 24 8 := h.byte (k := 3) (by decide)
  rw [h0, h1, h2, h3, word_of_bytes]

/-- A load inside the stored word completes, with the value of its rule. -/
theorem WordStored.load (h : WordStored s a v t) {mk : Reg → Reg → BitVec 12 → Instr} {n i : Nat}
    {value : State → Word → Word} (hrule : LoadRule mk n value) (hm : Admitted s .read a 4) {rd q : Reg} (hrd : rd ≠ 0)
    {j : BitVec 12} (hi : i + n ≤ 4) (hea : t.effAddr q j = a + BitVec.ofNat 32 i)
    (ha : (a + BitVec.ofNat 32 i).toNat % n = 0) :
    ∃ u, exec (mk rd q j) t = .next u ∧ u.x rd = value t (a + BitVec.ofNat 32 i) := by
  obtain ⟨hload, -⟩ := hrule t rd q j (a + BitVec.ofNat 32 i) (hea ▸ t.effAddr_eq_trunc32 q j)
  obtain ⟨u, hu, -, hx, -⟩ := hload ha (h.admitted_part hm hi) (h.ordinary_part hi)
  exact ⟨u, hu, hx hrd⟩

/-- After a `fence.i` the stored word is fetched. -/
theorem WordStored.fetches (h : WordStored s a v t) (hm : Admitted s .fetch a 4) :
    Fetches { t.advance with fetchDirty := [], pc := a } v where
  aligned := h.aligned
  admitted := h.admitted hm
  ordinary := by rw [h.state_eq]; exact h.ordinary
  fresh _ _ := List.not_mem_nil
  bytes _ hj := h.byte? hj

/-- Before it, the fetch is stale. -/
theorem WordStored.fetch_stale (h : WordStored s a v t) (hm : Admitted s .fetch a 4) :
    State.fetch { t with pc := a } = .raise (.staleFetch a) := by
  refine State.fetch_stale h.aligned (h.admitted hm) ⟨0, by decide, ?_⟩
  rw [h.state_eq]
  exact (AddrSet.mem_addBytes _ _ _ _).2 (.inr ⟨0, by decide, rfl⟩)

theorem WordStored.noInterrupt (h : WordStored s a v t) (hn : NoInterrupt s) : NoInterrupt t := by
  rw [h.state_eq]
  exact hn

end

end Sys2Proof.Machine

open Sys2Proof Sys2Proof.Machine

/-- Settles O46: a byte access is always aligned, which leaves the two cases of `LoadRule`. -/
theorem byteLoads : Obligations.ByteLoads := ⟨encodedAs_row (.lb 0 0 0), encodedAs_row (.lbu 0 0 0), lb_rule, lbu_rule⟩

/-- Settles O47: the two cases of `LoadRule`, and the misaligned one. -/
theorem halfWordLoads : Obligations.HalfWordLoads :=
  ⟨encodedAs_row (.lh 0 0 0), encodedAs_row (.lhu 0 0 0), lh_rule, loadMisalignedRule_of_exec exec_lh, lhu_rule,
    loadMisalignedRule_of_exec exec_lhu⟩

/-- Settles O48: the two cases of `LoadRule`, and the misaligned one. -/
theorem wordLoad : Obligations.WordLoad :=
  ⟨encodedAs_row (.lw 0 0 0), lw_rule, loadMisalignedRule_of_exec exec_lw⟩

/-- Settles O49: the two cases of `StoreRule`; a byte access is always aligned. -/
theorem byteStore : Obligations.ByteStore := ⟨encodedAs_row (.sb 0 0 0), storeRule_of_exec exec_sb (by decide)⟩

/-- Settles O50: the two cases of `StoreRule`, and the misaligned one. -/
theorem halfWordStore : Obligations.HalfWordStore :=
  ⟨encodedAs_row (.sh 0 0 0), storeRule_of_exec exec_sh (by decide), storeMisalignedRule_of_exec exec_sh⟩

/-- Settles O51: the two cases of `StoreRule`, and the misaligned one. -/
theorem wordStore : Obligations.WordStore :=
  ⟨encodedAs_row (.sw 0 0 0), storeRule_of_exec exec_sw (by decide), storeMisalignedRule_of_exec exec_sw⟩

/-- Settles O52: the refusal of each access, which the instruction hands on. -/
theorem deviceAccessIsRefused : Obligations.DeviceAccessIsRefused := by
  rintro s r rs1 imm ea hea
  refine ⟨fun hm ho => ⟨?_, ?_⟩, fun ha hm ho => ⟨?_, ?_⟩, fun ha hm ho => ?_, fun hm ho => ?_, fun ha hm ho => ?_,
    fun ha hm ho => ?_⟩
  · exact execLoad_device hea.symm (Nat.mod_one _) hm ho
  · exact execLoad_device hea.symm (Nat.mod_one _) hm ho
  · exact execLoad_device hea.symm ha hm ho
  · exact execLoad_device hea.symm ha hm ho
  · exact execLoad_device hea.symm ha hm ho
  · exact execStore_device hea.symm (Nat.mod_one _) hm ho
  · exact execStore_device hea.symm ha hm ho
  · exact execStore_device hea.symm ha hm ho

/-- Settles O53: each load is inside the stored word, whose bytes are those of `v`. -/
theorem loadsAfterAWordStoreSeeItsBytes : Obligations.LoadsAfterAWordStoreSeeItsBytes := by
  rintro s t rs2 rs1 rd imm a v rfl rfl hmode h hrd hm
  have hstored := wordStored_of_sw hmode h
  have ha := hstored.aligned
  refine ⟨fun q j k hk hea => ?_, fun q j hea => ⟨?_, ?_⟩, fun q j hea => ?_⟩
  · obtain ⟨u, hu, hx⟩ := hstored.load lbu_rule hm hrd (by omega) hea (Nat.mod_one _)
    exact ⟨u, hu, by rw [hx, hstored.byte hk]⟩
  · have hea' : t.effAddr q j = s.effAddr rs1 imm + BitVec.ofNat 32 0 := by simpa using hea
    obtain ⟨u, hu, hx⟩ := hstored.load lhu_rule hm hrd (by decide) hea' (by simp; omega)
    exact ⟨u, hu, by rw [hx, hstored.half (by decide)]⟩
  · have hea' : t.effAddr q j = s.effAddr rs1 imm + BitVec.ofNat 32 0 := by simpa using hea
    obtain ⟨u, hu, hx⟩ := hstored.load lw_rule hm hrd (by decide) hea' (by simp; omega)
    exact ⟨u, hu, by rw [hx, BitVec.add_zero, hstored.word]⟩
  · obtain ⟨u, hu, hx⟩ := hstored.load (i := 2) lhu_rule hm hrd (by decide) hea (by bv_omega)
    exact ⟨u, hu, by rw [hx, hstored.half (by decide)]⟩

/-- Settles O54: the store leaves `a` in `fetch_dirty`, and `fence.i` leaves the stored bytes and takes `a` out. -/
theorem storeToCodeNeedsFenceI : Obligations.StoreToCodeNeedsFenceI := by
  rintro s t u f v rs2 rs1 imm mid low a w rfl rfl hmode h hm hn rfl hfence rfl
  have hstored := wordStored_of_sw hmode h
  have hnt := hstored.noInterrupt hn
  obtain rfl : { t.advance with fetchDirty := [] } = f := Host.Outcome.next.inj hfence
  have hfetches := hstored.fetches hm
  refine ⟨?_, hfetches, fun i hd => step_of_fetches hnt hfetches hd⟩
  have hraise := State.nextInstr_of_fetch_raise (s := { t with pc := s.effAddr rs1 imm }) hnt (hstored.fetch_stale hm)
  rw [step_of_raise hraise, State.raise_staleFetch]
  rfl

end
